-- ==== Sys2Proof/Word.lean ====
section
/-! DEFINITION. The word types: bytes (registers, cells, opcodes) and 16-bit words (addresses, `pc`). -/

namespace Sys2Proof

/-- An 8-bit value: a register, a memory cell, an opcode, an operand (R7: REG_WIDTH, BYTE). -/
abbrev Byte := BitVec 8

/-- A 16-bit value: an address or the program counter (R7: PC_WIDTH). -/
abbrev Word := BitVec 16

end Sys2Proof
end

