-- ==== Sys2Proof/Config.lean ====
section
/-! DEFINITION. The implementation parameters of R7 (00_scope.md), each under its name there. Every one has a fixed
value; the core has no free value (R6). The source's literals are unaudited and taken as stated (DESIGN CHOICE of the
spec, D15; log 10). -/

namespace Sys2Proof.Config

/-- MEM_SIZE: the number of byte cells. -/
def memSize : Nat := 65536

/-- Z_BIT: the Zero flag's position in `P`. -/
def zBit : Nat := 1

/-- N_BIT: the Negative flag's position in `P`. -/
def nBit : Nat := 7

/-- The Zero flag's mask (R18). -/
def zMask : Byte := 0x02#8

/-- The Negative flag's mask (R18). -/
def nMask : Byte := 0x80#8

/-- The mask of the six reserved bits of `P` (R18, R21). -/
def reservedMask : Byte := 0x7D#8

/-- LOAD_ORIGIN: where LOAD places the first program byte. -/
def loadOrigin : Word := 0x8000#16

/-- RESET_VECTOR: the address of the low byte of the reset vector. -/
def resetVector : Word := 0xFFFC#16

/-- MAX_PROGRAM_LEN: the longest program LOAD accepts. -/
def maxProgramLen : Nat := 0x8000

/-- OPC_LDA_IMM. -/
def opcLdaImm : Byte := 0xA9#8

/-- OPC_TAX. -/
def opcTax : Byte := 0xAA#8

/-- OPC_INX. -/
def opcInx : Byte := 0xE8#8

/-- OPC_BRK. -/
def opcBrk : Byte := 0x00#8

end Sys2Proof.Config
end

