-- ==== Sys2Proof/Machine/State.lean ====
section
/-! DEFINITION. The state of the core, exactly the six items of R10 (10_state.md), the state after reset (R25), and the
reasons a step or a host command can stop. -/

namespace Sys2Proof.Machine

/-- The two general registers (R13). -/
inductive Reg where
  /-- The accumulator, `x[A]` (R11). -/
  | a
  /-- index_x, `x[X]` (R12). -/
  | x
  deriving DecidableEq, Repr

/-- The causes of a fatal condition (R100). -/
inductive FatalCause where
  /-- R101. -/
  | unrecognizedOpcode
  /-- R102. -/
  | programTooLarge
  deriving DecidableEq, Repr

/-- The control state (R23). -/
inductive RunState where
  /-- The core is inside the fetch-decode-execute loop. -/
  | running
  /-- The core is not executing. -/
  | halted
  /-- A fatal condition stopped the core. -/
  | faulted (cause : FatalCause)
  deriving DecidableEq, Repr

/-- `MEM` (R24, R30): the cells that do not hold what an unlisted cell reads as, by rising address. Its canonical form
is `Memory.wf`, its operations are in Machine/Ops.lean. -/
abbrev Memory := List Host.Cell

/-- The complete state of the core (R10). -/
structure State where
  /-- `x[A]` (R11). -/
  accumulator : Byte
  /-- `x[X]` (R12). -/
  indexX : Byte
  /-- `P` (R18): bit 7 is Negative, bit 1 is Zero, the other six are reserved. -/
  status : Byte
  /-- `pc` (R14). -/
  pc : Word
  /-- `MEM` (R24). -/
  mem : Memory
  /-- `run_state` (R23). -/
  runState : RunState
  deriving DecidableEq, Repr

/-- The machine right after reset: the state of POWER_ON (R25, R120), which a RESET of that state leaves as it is,
because the reset vector of a core never loaded holds 0x0000 (R25). `Halted` is the spec's decision D4 (log 5). -/
def State.reset : State where
  accumulator := 0x00#8
  indexX := 0x00#8
  status := 0x00#8
  pc := 0x0000#16
  mem := []
  runState := .halted

/-- Why the machine stopped. `stopped` is the state the fatal condition leaves (R103, R104; log 2). -/
inductive Fault where
  /-- Raised by a step of a running core whose opcode byte is none of the four (R72, R101). Safe: the spec's own fatal
  condition. It carries the opcode byte and the address it was fetched from. -/
  | unrecognizedOpcode (opcode : Byte) (address : Word) (stopped : State)
  /-- Raised by LOAD and LOAD_AND_RUN for a program longer than MAX_PROGRAM_LEN (R102, R123). Safe: the spec's own
  fatal condition. It carries the program's length. -/
  | programTooLarge (length : Nat) (stopped : State)
  /-- Raised by a step in `Faulted`: "No step is performed in it" (R105). Safe: the machine is stuck. -/
  | stuckInFaulted (cause : FatalCause) (stopped : State)
  deriving DecidableEq, Repr

/-- The state a fatal condition leaves (R103, R104). -/
def Fault.stopped : Fault → State
  | .unrecognizedOpcode _ _ s => s
  | .programTooLarge _ s => s
  | .stuckInFaulted _ s => s

/-- Why an instruction or a host command has no transition. -/
inductive Refusal where
  /-- Raised by exec's arm of an instruction that has no meaning yet. Safe. No arm is one now. -/
  | notModelled (mnemonic : String)
  /-- Raised by a host command issued in a `run_state` that does not accept it (R128): it does not happen, and the
  state is unchanged. Safe (log 7). -/
  | commandNotAccepted (runState : RunState)
  deriving DecidableEq, Repr

end Sys2Proof.Machine
end

