-- ==== Sys2Proof/Machine/Ops.lean ====
section
/-! DEFINITION. The named operations over memory, registers and `pc`, and `raise Fatal`. -/

namespace Sys2Proof.Machine

/-- What a cell that memory does not list reads as: 0, as at power-on (R25, R31; log 15). -/
def Memory.unlisted : Byte := 0x00#8

/-- The byte at a key of the list. -/
def Memory.lookup : Memory → Nat → Byte
  | [], _ => Memory.unlisted
  | (k, b) :: rest, key => if k = key then b else Memory.lookup rest key

/-- Puts a byte at a key of a canonical list and keeps it canonical: storing what an unlisted cell reads as removes the
entry. -/
def Memory.store : Memory → Nat → Byte → Memory
  | [], key, v => if v = Memory.unlisted then [] else [(key, v)]
  | (k, b) :: rest, key, v =>
    if key < k then
      if v = Memory.unlisted then (k, b) :: rest else (key, v) :: (k, b) :: rest
    else if key = k then
      if v = Memory.unlisted then rest else (key, v) :: rest
    else (k, b) :: Memory.store rest key v

/-- The keys of a list all lie at or above `low` and below MEM_SIZE and rise strictly, and no entry holds what an
unlisted cell reads as. -/
def Memory.wfFrom : Nat → Memory → Bool
  | _, [] => true
  | low, (k, b) :: rest =>
    decide (low ≤ k) && decide (k < Config.memSize) && decide (b ≠ Memory.unlisted) && Memory.wfFrom (k + 1) rest

/-- The canonical form of memory: equal memories are equal lists. -/
def Memory.wf (m : Memory) : Bool := Memory.wfFrom 0 m

/-- `MemRead(addr, 1)` on the cells: total (R31). -/
def Memory.read8 (m : Memory) (addr : Word) : Byte := m.lookup addr.toNat

/-- `MemWrite(addr, 1, v)` on the cells: total (R32). -/
def Memory.write8 (m : Memory) (addr : Word) (v : Byte) : Memory := m.store addr.toNat v

/-- `MemRead(addr, 2)`: low byte at `addr`, high byte at `(addr + 1) mod 65536`, the high byte in the high bits
(R33, R35). -/
def Memory.read16 (m : Memory) (addr : Word) : Word := m.read8 (addr + 1) ++ m.read8 addr

/-- `MemWrite(addr, 2, v)`: the low byte to `addr`, then the high byte to `(addr + 1) mod 65536` (R34, R35; log 14). -/
def Memory.write16 (m : Memory) (addr : Word) (v : Word) : Memory :=
  (m.write8 addr (v.extractLsb' 0 8)).write8 (addr + 1) (v.extractLsb' 8 8)

/-- Copies bytes to ascending addresses from `addr` on (R121). -/
def Memory.copy : Memory → Word → List Byte → Memory
  | m, _, [] => m
  | m, addr, b :: rest => Memory.copy (m.write8 addr b) (addr + 1) rest

/-- `MemRead(addr, 1)` (R31): every access of the core, instruction fetch included, goes through it (R46). -/
def State.read8 (s : State) (addr : Word) : Byte := s.mem.read8 addr

/-- `MemRead(addr, 2)` (R33). -/
def State.read16 (s : State) (addr : Word) : Word := s.mem.read16 addr

/-- `MemWrite(addr, 1, v)` (R32). -/
def State.write8 (s : State) (addr : Word) (v : Byte) : State := { s with mem := s.mem.write8 addr v }

/-- `MemWrite(addr, 2, v)` (R34). -/
def State.write16 (s : State) (addr : Word) (v : Word) : State := { s with mem := s.mem.write16 addr v }

/-- Read of a general register (R13: neither is hardwired, neither has an alias). -/
def State.readReg (s : State) : Reg → Byte
  | .a => s.accumulator
  | .x => s.indexX

/-- Write of a general register (R13). -/
def State.writeReg (s : State) (r : Reg) (v : Byte) : State :=
  match r with
  | .a => { s with accumulator := v }
  | .x => { s with indexX := v }

/-- One advance of `pc`, modulo 65536 (R15, R16; the wrap is the spec's decision D1, log 4). -/
def State.advancePc (s : State) : State := { s with pc := s.pc + 1 }

/-- A write of `run_state` (R65). -/
def State.setRunState (s : State) (r : RunState) : State := { s with runState := r }

/-- What `raise Fatal(cause, info)` does to the state (R103): it sets `run_state` and changes nothing else. The
information goes into the `Fault` (log 3). -/
def State.raiseFatal (s : State) (cause : FatalCause) : State := s.setRunState (.faulted cause)

end Sys2Proof.Machine
end

