-- ==== Sys2Proof/Machine/Flags.lean ====
section
/-! DEFINITION. The status register's two flags (R18) and the one shared flag rule (R73, R74). -/

namespace Sys2Proof.Machine

/-- The Zero flag, bit 1 of `P` (R18). -/
def State.zero (s : State) : Bool := s.status.getLsbD Config.zBit

/-- The Negative flag, bit 7 of `P` (R18). -/
def State.negative (s : State) : Bool := s.status.getLsbD Config.nBit

/-- The status byte SetNZ leaves, from the status byte before and the result (R73): the reserved bits are kept, both
flags are written. -/
def flagsOf (p v : Byte) : Byte :=
  (p &&& Config.reservedMask) ||| (if v = 0x00#8 then Config.zMask else 0x00#8) ||| (v &&& Config.nMask)

/-- `SetNZ(v)` (R73). -/
def State.setNZ (s : State) (v : Byte) : State := { s with status := flagsOf s.status v }

/-- Writes a result to a register and applies the flag rule to the value written (R74). -/
def State.writeResult (s : State) (r : Reg) (v : Byte) : State :=
  (s.writeReg r v).setNZ ((s.writeReg r v).readReg r)

end Sys2Proof.Machine
end

