-- ==== Sys2Proof/Machine/Arithmetic.lean ====
section
/-! DEFINITION. The arithmetic family (43_increment.md). -/

namespace Sys2Proof.Machine

/-- INX, R90: the addition wraps modulo 256. -/
def execInx (s : State) : Host.Outcome State Fault Refusal := .next (s.writeResult .x (s.readReg .x + 1))

end Sys2Proof.Machine
end

