-- ==== Sys2Proof/Machine/Control.lean ====
section
/-! DEFINITION. The system family (44_halt.md). -/

namespace Sys2Proof.Machine

/-- BRK, the halt, R95: it defines no result, writes no flag, saves nothing and reads no vector. -/
def execBrk (s : State) : Host.Outcome State Fault Refusal := .next (s.setRunState .halted)

end Sys2Proof.Machine
end

