-- ==== Sys2Proof/Machine/Load.lean ====
section
/-! DEFINITION. The load family (41_load_immediate.md). A meaning acts on the state in which `pc` is already past the
instruction (R15; log 18). -/

namespace Sys2Proof.Machine

/-- LDA (immediate), R80. -/
def execLda (imm8 : Byte) (s : State) : Host.Outcome State Fault Refusal := .next (s.writeResult .a imm8)

end Sys2Proof.Machine
end

