-- ==== Sys2Proof/Machine/Transfer.lean ====
section
/-! DEFINITION. The register transfer family (42_register_transfer.md). -/

namespace Sys2Proof.Machine

/-- TAX, R85. -/
def execTax (s : State) : Host.Outcome State Fault Refusal := .next (s.writeResult .x (s.readReg .a))

end Sys2Proof.Machine
end

