-- ==== Sys2Proof/Syntax.lean ====
section
/-! DEFINITION. The instructions: one constructor per row of spec/opcode_table.json (R2, R56: the closed set). -/

namespace Sys2Proof

/-- The four instructions (R56). Registers are implied by the opcode (R51); the one operand is LDA's immediate byte. -/
inductive Instr where
  /-- BRK, the halt (R95). -/
  | brk
  /-- LDA (immediate): load the accumulator with `imm8` (R80). -/
  | lda (imm8 : Byte)
  /-- TAX: copy the accumulator to index_x (R85). -/
  | tax
  /-- INX: add 1 to index_x (R90). -/
  | inx
  deriving DecidableEq, Repr

end Sys2Proof
end

