-- ==== Sys2Proof/WellFormed.lean ====
section
/-! DEFINITION. Which terms are well formed. An instruction's one operand is a byte, and every byte is legal (R55), so
no instruction term is ill formed; a program must fit between the origin and the top of memory (R123). -/

namespace Sys2Proof

/-- Whether an instruction is well formed. The type of `imm8` already holds exactly the 256 legal operands (R55); the
other three have no operand (R51). -/
def Instr.wellFormed : Instr → Bool
  | .brk => true
  | .lda _ => true
  | .tax => true
  | .inx => true

/-- Whether LOAD accepts a program of these bytes (R123): at most MAX_PROGRAM_LEN of them, of any values (R122: "there
is no container/header format"). -/
def programFits (program : List Byte) : Bool := decide (program.length ≤ Config.maxProgramLen)

end Sys2Proof
end

