-- ==== Sys2Proof/Decode.lean ====
section
/-! DEFINITION. The decoder, total on any bytes and rejecting by name (R53, R56, R57), the length of an instruction
(R54), and the encoder (R51, R52). -/

namespace Sys2Proof

/-- Why a byte sequence does not begin with an instruction. -/
inductive DecodeError where
  /-- There is no byte to take an opcode from. -/
  | noOpcode
  /-- The opcode takes an operand and the sequence ends before it. In memory this cannot happen: the address space is
  circular (R60). -/
  | operandMissing (opcode : Byte)
  /-- The byte is none of the four opcodes (R57). -/
  | unrecognizedOpcode (opcode : Byte)
  deriving DecidableEq, Repr

/-- The length in bytes of the instruction an opcode selects (R54); an unrecognized opcode has none. -/
def instrLength (opcode : Byte) : Option Nat :=
  if opcode = Config.opcLdaImm then some 2
  else if opcode = Config.opcTax then some 1
  else if opcode = Config.opcInx then some 1
  else if opcode = Config.opcBrk then some 1
  else none

/-- Reads one instruction from the front of a byte sequence and returns it with the bytes after it. The opcode is
compared as a whole byte (R53, R56); only LDA consumes a second byte, used as it stands (R52, R55). -/
def decode : List Byte → Except DecodeError (Instr × List Byte)
  | [] => .error .noOpcode
  | opcode :: rest =>
    if opcode = Config.opcLdaImm then
      match rest with
      | [] => .error (.operandMissing opcode)
      | imm8 :: rest' => .ok (.lda imm8, rest')
    else if opcode = Config.opcTax then .ok (.tax, rest)
    else if opcode = Config.opcInx then .ok (.inx, rest)
    else if opcode = Config.opcBrk then .ok (.brk, rest)
    else .error (.unrecognizedOpcode opcode)

/-- The bytes of an instruction, the lowest address first (R50 to R52, R56). -/
def encode : Instr → List Byte
  | .brk => [0x00#8]
  | .lda imm8 => [0xA9#8, imm8]
  | .tax => [0xAA#8]
  | .inx => [0xE8#8]

/-- The longest instruction of the closed set, in bytes (R50). -/
def maxInstrLength : Nat := 2

/-- The bytes of a table word: bit 0 of `w` is the least significant bit of the first byte, and only the low `nbits`
bits count. Two bytes, the longest instruction (log 16). -/
def tableBytes (nbits w : Nat) : List Byte :=
  [BitVec.ofNat 8 (w % 2 ^ nbits), BitVec.ofNat 8 (w % 2 ^ nbits / 256)]

/-- The instruction the decoder reads from a word numbered as spec/opcode_table.json numbers it (log 16). -/
def decodeTableWord (nbits w : Nat) : Option Instr :=
  match decode (tableBytes nbits w) with
  | .ok (i, _) => some i
  | .error _ => none

end Sys2Proof
end

