-- ==== Sys2Proof/Machine/Operands.lean ====
section
/-! DEFINITION. The instruction stream: the fetch of an opcode and of the one operand form, the immediate byte (R67,
R69, R81). -/

namespace Sys2Proof.Machine

/-- Consumes `n` bytes of the instruction stream: each is read at `pc`, and `pc` advances past it before it is used
again (R15, R67, R69). -/
def State.consume : Nat → State → List Byte × State
  | 0, s => ([], s)
  | n + 1, s =>
    (s.read8 s.pc :: (State.consume n s.advancePc).1, (State.consume n s.advancePc).2)

/-- How many bytes a step consumes that fetches this opcode: the instruction's length (R54), and the opcode byte alone
where it is unrecognized (R72: no operand is fetched). -/
def bytesConsumed (opcode : Byte) : Nat := (instrLength opcode).getD 1

/-- The fetch of a whole instruction: its bytes, and the state with `pc` past them (R67, R69). -/
def State.fetch (s : State) : List Byte × State := s.consume (bytesConsumed (s.read8 s.pc))

end Sys2Proof.Machine
end

