-- ==== Sys2Proof/Machine/Cycle.lean ====
section
/-! DEFINITION. The parts of a step (40_execution_cycle.md section 2), and what a step is outside `Running`. -/

namespace Sys2Proof.Machine

/-- The fatal condition of an unrecognized opcode, from the opcode and the state the fetch left: the information is the
opcode and the address it was fetched from, one below the advanced `pc` (R72). -/
def unrecognizedOpcode (opcode : Byte) (s : State) : Fault :=
  .unrecognizedOpcode opcode (s.pc - 1) (s.raiseFatal .unrecognizedOpcode)

/-- One pass of the loop body: fetch, decode, operand fetch, execute, as one indivisible transition (R67 to R72). -/
def State.cycle (s : State) : Host.Outcome State Fault Refusal :=
  match decode s.fetch.1 with
  | .ok (i, _) => exec i s.fetch.2
  | .error _ => .fault (unrecognizedOpcode (s.read8 s.pc) s.fetch.2)

/-- A step while `Halted`: the core performs nothing and all state survives unchanged (R115; DESIGN CHOICE that this is
a step at all, log 1). -/
def State.idle (s : State) : Host.Outcome State Fault Refusal := .next s

/-- A step while `Faulted`: none is performed, the machine is stuck (R105; log 2). -/
def State.stuck (s : State) (cause : FatalCause) : Host.Outcome State Fault Refusal :=
  .fault (.stuckInFaulted cause s)

/-- The state whose next step fetches the bytes given: they stand at `pc` and upward, and the core is in the loop, as
LOAD, RESET and RUN would have put them (log 12). -/
def State.presentBytes (s : State) (bytes : List Byte) : State :=
  { s with mem := s.mem.copy s.pc bytes, runState := .running }

end Sys2Proof.Machine
end

