-- ==== Sys2Proof/Machine/Step.lean ====
section
/-! DEFINITION. One step of the core, and the host's way of presenting one instruction to it. -/

namespace Sys2Proof.Machine

/-- One step. A pass of the loop body is performed exactly while `Running` (R66, R71); in `Halted` nothing happens
(R115, log 1), and in `Faulted` the machine is stuck (R105). -/
def step (s : State) : Host.Outcome State Fault Refusal :=
  match s.runState with
  | .running => s.cycle
  | .halted => s.idle
  | .faulted cause => s.stuck cause

/-- `s` with a table word stored where the next step fetches, and the core in the loop (log 12). -/
def State.withFetchWord (s : State) (nbits w : Nat) : State := s.presentBytes (tableBytes nbits w)

end Sys2Proof.Machine
end

