-- ==== Sys2Proof/Machine/Assembly.lean ====
section
/-! DEFINITION. The assembly notation of R61: `LDA v` with `v` in decimal or in `0x` hexadecimal, `TAX`, `INX`, `BRK`,
separated by commas or line breaks. Texts are lists of characters. What R61 does not settle is in log 9. -/

namespace Sys2Proof.Machine

/-- The value of a hexadecimal digit, either case. -/
def hexDigit (c : Char) : Option Nat :=
  if '0' ≤ c ∧ c ≤ '9' then some (c.toNat - 48)
  else if 'A' ≤ c ∧ c ≤ 'F' then some (c.toNat - 55)
  else if 'a' ≤ c ∧ c ≤ 'f' then some (c.toNat - 87)
  else none

/-- The digits' value in a base, above a value already read; none at a character that is no digit of the base. -/
def digitsValue (base : Nat) : Nat → List Char → Option Nat
  | acc, [] => some acc
  | acc, c :: rest =>
    match hexDigit c with
    | some d => if d < base then digitsValue base (acc * base + d) rest else none
    | none => none

/-- A number in decimal or, after `0x`, in hexadecimal; at least one digit. -/
def numberValue : List Char → Option Nat
  | [] => none
  | ['0', 'x'] => none
  | '0' :: 'x' :: rest => digitsValue 16 0 rest
  | text => digitsValue 10 0 text

/-- A number that is a byte value (R61). -/
def byteValue (text : List Char) : Option Byte :=
  match numberValue text with
  | some n => if n < 256 then some (BitVec.ofNat 8 n) else none
  | none => none

/-- Drops the blanks at the front. A blank is the space character alone (DESIGN CHOICE, log 9). -/
def dropBlanks : List Char → List Char
  | ' ' :: rest => dropBlanks rest
  | text => text

/-- Drops the blanks at both ends. -/
def trimBlanks (text : List Char) : List Char := (dropBlanks (dropBlanks text).reverse).reverse

/-- One instruction in the notation of R61, without blanks at its ends. -/
def parseInstr : List Char → Option Instr
  | ['T', 'A', 'X'] => some .tax
  | ['I', 'N', 'X'] => some .inx
  | ['B', 'R', 'K'] => some .brk
  | 'L' :: 'D' :: 'A' :: ' ' :: operand => (byteValue (dropBlanks operand)).map .lda
  | _ => none

/-- The pieces of a text between commas and line breaks. R61 does not say which characters a line break is: here it is
the single character LF, and CR is no separator and no blank (DESIGN CHOICE, log 9). -/
def splitItems : List Char → List (List Char)
  | [] => [[]]
  | c :: rest =>
    if c = ',' ∨ c = '\n' then [] :: splitItems rest
    else
      match splitItems rest with
      | [] => [[c]]
      | item :: items => (c :: item) :: items

/-- The instructions of a program in the notation of R61; none where an item is no instruction. Items of blanks alone
are passed over. -/
def parseItems : List (List Char) → Option (List Instr)
  | [] => some []
  | item :: items =>
    if trimBlanks item = [] then parseItems items
    else
      match parseInstr (trimBlanks item), parseItems items with
      | some i, some is => some (i :: is)
      | _, _ => none

/-- The bytes of a program given in the notation of R61 ("a list of byte values"). -/
def assemble (text : List Char) : Option (List Byte) :=
  (parseItems (splitItems text)).map fun program => program.flatMap encode

/-- A hexadecimal digit's character. -/
def hexChar (n : Nat) : Char := if n < 10 then Char.ofNat (48 + n) else Char.ofNat (55 + n)

/-- An instruction written in the notation of R61, its operand in two hexadecimal digits. -/
def asmText : Instr → List Char
  | .brk => ['B', 'R', 'K']
  | .lda imm8 => ['L', 'D', 'A', ' ', '0', 'x', hexChar (imm8.toNat / 16), hexChar (imm8.toNat % 16)]
  | .tax => ['T', 'A', 'X']
  | .inx => ['I', 'N', 'X']

/-- A program written in the notation of R61: its instructions, separated by a comma and a blank. -/
def programText : List Instr → List Char
  | [] => []
  | [i] => asmText i
  | i :: rest => asmText i ++ ',' :: ' ' :: programText rest

end Sys2Proof.Machine
end

