-- ==== Sys2Proof/Machine/Commands.lean ====
section
/-! DEFINITION. The host commands that run no step: POWER_ON, LOAD, RESET, INSPECT, and which commands a `run_state`
accepts (70_reset_and_hazards.md; log 17). -/

namespace Sys2Proof.Machine

/-- The six host commands (R5). -/
inductive Command where
  /-- R120. -/
  | powerOn
  /-- R121 to R124. -/
  | load (program : List Byte)
  /-- R125, R126. -/
  | reset
  /-- R66. -/
  | run
  /-- R127. -/
  | loadAndRun (program : List Byte)
  /-- R129. -/
  | inspect
  deriving DecidableEq, Repr

/-- What INSPECT returns (R129). -/
structure Inspection where
  accumulator : Byte
  indexX : Byte
  status : Byte
  programCounter : Word
  deriving DecidableEq, Repr

/-- Whether a command is accepted in a `run_state` (R128; for POWER_ON in `Running` see log 19). -/
def RunState.accepts : RunState → Command → Bool
  | .halted, _ => true
  | .running, _ => false
  | .faulted _, .powerOn => true
  | .faulted _, _ => false

/-- The state POWER_ON creates, from any state (R120). -/
def State.powerOn (_ : State) : State :=
  { accumulator := 0x00#8, indexX := 0x00#8, status := 0x00#8, pc := 0x0000#16, mem := [], runState := .halted }

/-- What LOAD writes for a program that fits: the program from the origin upward (R121), then the origin into the reset
vector, which wins where they overlap (R122; the order is the spec's decision D6, log 6). -/
def State.loadProgram (s : State) (program : List Byte) : State :=
  { s with mem := (s.mem.copy Config.loadOrigin program).write16 Config.resetVector Config.loadOrigin }

/-- LOAD, once accepted: an oversized program raises ProgramTooLarge before any byte is written (R123; the spec's
decision D5, log 6). -/
def State.load (s : State) (program : List Byte) : Host.Outcome State Fault Refusal :=
  if programFits program then .next (s.loadProgram program)
  else .fault (.programTooLarge program.length (s.raiseFatal .programTooLarge))

/-- RESET, once accepted (R125): both registers and all eight bits of `P` to zero, `pc` from the reset vector. It does
not apply SetNZ, write memory or start execution. -/
def State.resetCommand (s : State) : State :=
  { s with accumulator := 0x00#8, indexX := 0x00#8, status := 0x00#8, pc := s.read16 Config.resetVector }

/-- The four registers INSPECT reads (R129). -/
def State.inspection (s : State) : Inspection :=
  { accumulator := s.readReg .a, indexX := s.readReg .x, status := s.status, programCounter := s.pc }

/-- INSPECT's answer, where it is accepted (R128, R129). -/
def State.inspect (s : State) : Option Inspection :=
  if s.runState.accepts .inspect then some s.inspection else none

/-- The observation of memory that a model may expose in `Halted` (R129; the spec's decision D10, log 8). -/
def State.observeMemory (s : State) (addr : Word) : Option Byte :=
  if s.runState = .halted then some (s.read8 addr) else none

end Sys2Proof.Machine
end

