-- ==== Sys2Proof/Machine/Run.lean ====
section
/-! DEFINITION. RUN, LOAD_AND_RUN, and every host command as one function. RUN has no step limit (R75): the executor
runs under fuel of its own and answers none where the fuel did not suffice (log 11). -/

namespace Sys2Proof.Machine

/-- The loop `while run_state = Running do Step()` (R66) under fuel: none where it is still `Running` when the fuel is
spent. A fatal condition ends the loop (R103). -/
def State.loop : Nat → State → Option (Host.Outcome State Fault Refusal)
  | 0, s => if s.runState = .running then none else some (.next s)
  | fuel + 1, s =>
    if s.runState = .running then
      match step s with
      | .next t => State.loop fuel t
      | .fault f => some (.fault f)
      | .refused r => some (.refused r)
    else some (.next s)

/-- How many steps the loop performs under fuel; the step that raises a fatal condition counts (R76). -/
def State.stepCount : Nat → State → Nat
  | 0, _ => 0
  | fuel + 1, s =>
    if s.runState = .running then
      match step s with
      | .next t => State.stepCount fuel t + 1
      | .fault _ => 1
      | .refused _ => 1
    else 0

/-- RUN's first act: `run_state <- Running` and nothing else (R66; it does not reset, log 13). -/
def State.enterLoop (s : State) : State := s.setRunState .running

/-- RUN, once accepted (R66). -/
def State.run (fuel : Nat) (s : State) : Option (Host.Outcome State Fault Refusal) := State.loop fuel s.enterLoop

/-- LOAD_AND_RUN, once accepted: LOAD, then RESET, then RUN; after a fatal LOAD nothing further happens (R127; the
spec's decision D17, log 7). -/
def State.loadAndRun (fuel : Nat) (program : List Byte) (s : State) : Option (Host.Outcome State Fault Refusal) :=
  match s.load program with
  | .next t => State.run fuel t.resetCommand
  | .fault f => some (.fault f)
  | .refused r => some (.refused r)

/-- What an accepted command does. -/
def Command.perform (fuel : Nat) (s : State) : Command → Option (Host.Outcome State Fault Refusal)
  | .powerOn => some (.next s.powerOn)
  | .load program => some (s.load program)
  | .reset => some (.next s.resetCommand)
  | .run => State.run fuel s
  | .loadAndRun program => State.loadAndRun fuel program s
  | .inspect => some (.next s)

/-- A host command issued in a state: performed where the `run_state` accepts it, refused with no transition otherwise
(R128). -/
def State.issue (fuel : Nat) (s : State) (c : Command) : Option (Host.Outcome State Fault Refusal) :=
  if s.runState.accepts c then c.perform fuel s else some (.refused (.commandNotAccepted s.runState))

/-- The state after a command issued in `s`: the state it leaves, the stopped state of a fatal condition, or `s` itself
where the command was not accepted (R103, R128). -/
def settled (s : State) : Host.Outcome State Fault Refusal → State
  | .next t => t
  | .fault f => f.stopped
  | .refused _ => s

/-- A sequence of host commands, each issued in the state the one before it left (R130, R131). None where a RUN did
not complete within the fuel. -/
def State.session (fuel : Nat) : State → List Command → Option State
  | s, [] => some s
  | s, c :: rest =>
    match State.issue fuel s c with
    | none => none
    | some o => State.session fuel (settled s o) rest

/-- How many steps `n` RUNs issued one after the other perform together (R76). A RUN that is not accepted performs
none. -/
def State.runsStepCount (fuel : Nat) : Nat → State → Nat
  | 0, _ => 0
  | n + 1, s =>
    (if s.runState.accepts .run then State.stepCount fuel s.enterLoop else 0) +
      match State.issue fuel s .run with
      | none => 0
      | some o => State.runsStepCount fuel n (settled s o)

end Sys2Proof.Machine
end

