-- ==== Sys2Proof/Safety.lean ====
section
/-! DEFINITION. What statements about runs say: the ways a run ends (R135), the states the host's commands and the
core's steps can produce, and the invariant that every step and command keeps. -/

namespace Sys2Proof.Machine

/-- The flags of `t` are those the flag rule gives for the result `v`, and the six other bits of `P` are as in `s`
(R73). -/
def FlagsDescribe (s t : State) (v : Byte) : Prop :=
  t.zero = decide (v = 0x00#8) ∧ t.negative = v.getLsbD 7 ∧
    ∀ i, i ≠ 1 → i ≠ 7 → t.status.getLsbD i = s.status.getLsbD i

/-- Every byte of memory reads as before. -/
def SameMemory (s t : State) : Prop := ∀ a : Word, t.read8 a = s.read8 a

/-- A run from `s` ends correctly in `t`: the loop ends and `run_state` is `Halted` (R135). -/
def EndsCorrectly (s t : State) : Prop :=
  ∃ fuel, State.loop fuel s = some (.next t) ∧ t.runState = .halted

/-- A run from `s` ends in a fault (R135). -/
def EndsInFault (s : State) (f : Fault) : Prop := ∃ fuel, State.loop fuel s = some (.fault f)

/-- A run from `s` never leaves `Running` (R75, R135: "A run that never leaves `Running` does not end"). -/
def NeverEnds (s : State) : Prop := ∀ fuel, State.loop fuel s = none

/-- The reserved bits of `P` are 0 and Z and N are not both 1 (R21). -/
def State.legalStatus (s : State) : Bool :=
  decide (s.status = 0x00#8) || decide (s.status = 0x02#8) || decide (s.status = 0x80#8)

/-- The invariant of the core: memory is in its canonical form and `P` is one of the three values of R21. -/
def State.Inv (s : State) : Bool := s.mem.wf && s.legalStatus

/-- The reset vector holds 0x0000 or the origin: what every reachable state has (R126). -/
def State.vectorKnown (s : State) : Bool :=
  decide (s.read16 0xFFFC#16 = 0x0000#16) || decide (s.read16 0xFFFC#16 = 0x8000#16)

/-- The states that POWER_ON, host commands and steps can produce: the states inside a run (R66, R127: RUN's loop
entered, then step after step) and the stopped states of fatal conditions among them. -/
inductive Reachable : State → Prop
  | reset : Reachable State.reset
  | enterLoop {s : State} : Reachable s → s.runState = .halted → Reachable s.enterLoop
  | step {s : State} {o : Host.Outcome State Fault Refusal} :
      Reachable s → Machine.step s = o → Reachable (settled s o)
  | command {s : State} {o : Host.Outcome State Fault Refusal} (fuel : Nat) (c : Command) :
      Reachable s → s.issue fuel c = some o → Reachable (settled s o)

end Sys2Proof.Machine
end

