-- ==== Sys2Proof/Certificates/Slice0/Obligations.lean ====
section
/-! DEFINITION. The statements for the provers. Opcodes, addresses and masks are written as the spec's numerals, so
that a statement does not rest on Config. -/

open Sys2Proof Sys2Proof.Machine

/-! ## Memory -/

/-- R31, R32: a byte read returns what was last written to the cell, 0 at power-on; a byte write sets its cell and
changes no other cell and no other state. -/
def Obligations.ByteReadReturnsWhatWasLastWritten : Prop :=
  (∀ (s : State) (a b : Word) (v : Byte), s.mem.wf = true →
    (s.write8 a v).read8 b = (if b = a then v else s.read8 b) ∧
    { s.write8 a v with mem := s.mem } = s) ∧
  (∀ (s : State) (b : Word), s.powerOn.read8 b = 0x00#8)

/-- R33: the formula of `MemRead(addr, 2)`, the high byte widened before it is shifted. -/
def Obligations.WordReadIsTheLittleEndianFormula : Prop :=
  ∀ (s : State) (a : Word),
    s.read16 a = (s.read8 a).setWidth 16 ||| ((s.read8 (a + 1)).setWidth 16 <<< 8)

/-- R34: a 16-bit write puts the low byte at `addr` and the high byte at `(addr + 1) mod 65536`, and changes nothing
else (the order of the two byte writes, the spec's decision D14, cannot be observed; log 14). -/
def Obligations.WordWriteSetsItsTwoCells : Prop :=
  ∀ (s : State) (a b v : Word), s.mem.wf = true →
    (s.write16 a v).read8 b =
      (if b = a then v.extractLsb' 0 8 else if b = a + 1 then v.extractLsb' 8 8 else s.read8 b) ∧
    { s.write16 a v with mem := s.mem } = s

/-- R35: at 0xFFFF a 16-bit access wraps, reads and writes alike. -/
def Obligations.WordAccessWrapsAtTheTop : Prop :=
  ∀ (s : State) (v : Word), s.mem.wf = true →
    s.read16 0xFFFF#16 = s.read8 0x0000#16 ++ s.read8 0xFFFF#16 ∧
    (s.write16 0xFFFF#16 v).read8 0xFFFF#16 = v.extractLsb' 0 8 ∧
    (s.write16 0xFFFF#16 v).read8 0x0000#16 = v.extractLsb' 8 8

/-- R36: a write followed by a read of the same width at the same address gives the value written, at every address. -/
def Obligations.WriteThenReadGivesTheValueWritten : Prop :=
  ∀ (s : State) (a v : Word) (b : Byte), s.mem.wf = true →
    (s.write16 a v).read16 a = v ∧ (s.write8 a b).read8 a = b

/-- The model's form of memory (log 15): two memories in canonical form that read the same everywhere are the same
list. -/
def Obligations.CanonicalMemoriesThatReadAlikeAreEqual : Prop :=
  ∀ m m' : Memory, m.wf = true → m'.wf = true → (∀ a : Word, m.read8 a = m'.read8 a) → m = m'

/-! ## Encoding -/

/-- Decode and encode agree in both directions: a byte sequence decodes to an instruction exactly when it begins with
that instruction's bytes. -/
def Obligations.DecodeIsTheInverseOfEncode : Prop :=
  ∀ (bytes rest : List Byte) (i : Instr), i.wellFormed = true →
    (decode bytes = .ok (i, rest) ↔ bytes = encode i ++ rest)

/-- R56: the four assigned opcode values select their instructions. -/
def Obligations.FourOpcodesDecodeAsTabled : Prop :=
  ∀ (imm8 : Byte) (rest : List Byte),
    decode (0b00000000#8 :: rest) = .ok (.brk, rest) ∧
    decode (0b10101001#8 :: imm8 :: rest) = .ok (.lda imm8, rest) ∧
    decode (0b10101010#8 :: rest) = .ok (.tax, rest) ∧
    decode (0b11101000#8 :: rest) = .ok (.inx, rest)

/-- R57: the 252 opcode values not assigned are those of three ranges; the decoder rejects exactly them by name, and
a step of a running core faults exactly where the decoder so rejects (which fault it is, UnrecognizedOpcodeStopsTheCore
says). -/
def Obligations.ExactlyTheOtherOpcodesAreUnrecognized : Prop :=
  (∀ (b : Byte) (rest : List Byte),
    decode (b :: rest) = .error (.unrecognizedOpcode b) ↔
      (0x01 ≤ b.toNat ∧ b.toNat ≤ 0xA8) ∨ (0xAB ≤ b.toNat ∧ b.toNat ≤ 0xE7) ∨
        (0xE9 ≤ b.toNat ∧ b.toNat ≤ 0xFF)) ∧
  (∀ s : State, s.runState = .running →
    ((∃ f, step s = .fault f) ↔
      decode [s.read8 s.pc] = .error (.unrecognizedOpcode (s.read8 s.pc))))

/-- R54 (which the spec derives): the length of an instruction is a function of its opcode byte alone, and a decode
consumes that many bytes. -/
def Obligations.LengthIsAFunctionOfTheOpcode : Prop :=
  (∀ b : Byte, instrLength b =
    if b = 0xA9#8 then some 2 else if b = 0xAA#8 ∨ b = 0xE8#8 ∨ b = 0x00#8 then some 1 else none) ∧
  (∀ (b : Byte) (bytes rest : List Byte) (i : Instr), decode (b :: bytes) = .ok (i, rest) →
    ∃ n, instrLength b = some n ∧ (b :: bytes).length = n + rest.length)

/-- The interface's table words (logs 12, 16): a step of the state that presents a table word runs the instruction the
decoder reads from that word. At the top of memory the bytes and `pc` wrap (the spec's decision D1, log 4). -/
def Obligations.PresentedTableWordRunsAsDecoded : Prop :=
  ∀ (s : State) (nbits w : Nat) (i : Instr), s.mem.wf = true → decodeTableWord nbits w = some i →
    step (s.withFetchWord nbits w) =
      exec i { s.withFetchWord nbits w with pc := s.pc + BitVec.ofNat 16 (encode i).length }

/-! ## The flag rule -/

/-- R73: SetNZ writes Z and N from the value, leaves the six other bits, and changes nothing but `P`. -/
def Obligations.FlagRuleWritesZeroAndNegativeOnly : Prop :=
  ∀ (s : State) (v : Byte),
    FlagsDescribe s (s.setNZ v) v ∧
    (s.setNZ v).status = (s.status &&& 0x7D#8) ||| (if v = 0x00#8 then 0x02#8 else 0x00#8) ||| (v &&& 0x80#8) ∧
    { s.setNZ v with status := s.status } = s

/-! ## The four instructions: what exec answers, on every state -/

/-- R80, the execute part: LDA completes, with its result, its flags and its frame. `pc` is already past the
instruction (log 18). -/
def Obligations.LdaCompletesWithItsOperand : Prop :=
  ∀ (imm8 : Byte) (s : State), ∃ t, exec (.lda imm8) s = .next t ∧
    t.readReg .a = imm8 ∧ FlagsDescribe s t imm8 ∧
    t.readReg .x = s.readReg .x ∧ t.pc = s.pc ∧ SameMemory s t ∧ t.runState = s.runState

/-- R85, the execute part: TAX completes, with its result, its flags and its frame. -/
def Obligations.TaxCompletesWithTheAccumulator : Prop :=
  ∀ s : State, ∃ t, exec .tax s = .next t ∧
    t.readReg .x = s.readReg .a ∧ FlagsDescribe s t (t.readReg .x) ∧
    t.readReg .a = s.readReg .a ∧ t.pc = s.pc ∧ SameMemory s t ∧ t.runState = s.runState

/-- R90, the execute part: INX completes, with its result modulo 256, its flags and its frame. -/
def Obligations.InxCompletesWithTheIncrement : Prop :=
  ∀ s : State, ∃ t, exec .inx s = .next t ∧
    (t.readReg .x).toNat = ((s.readReg .x).toNat + 1) % 256 ∧ FlagsDescribe s t (t.readReg .x) ∧
    t.readReg .a = s.readReg .a ∧ t.pc = s.pc ∧ SameMemory s t ∧ t.runState = s.runState

/-- R95, the execute part: BRK completes; it halts and changes nothing else. -/
def Obligations.BrkCompletesByHalting : Prop :=
  ∀ s : State, ∃ t, exec .brk s = .next t ∧
    t.runState = .halted ∧ t.status = s.status ∧
    t.readReg .a = s.readReg .a ∧ t.readReg .x = s.readReg .x ∧ t.pc = s.pc ∧ SameMemory s t

/-- R74: every instruction that writes a register applies the flag rule to the value it wrote, the other register is
unchanged, and an instruction that writes none leaves `P` alone. -/
def Obligations.RegisterWritesAndFlagWritesGoTogether : Prop :=
  ∀ (i : Instr) (s t : State), exec i s = .next t →
    (i = .brk ∧ t.status = s.status ∧ ∀ r, t.readReg r = s.readReg r) ∨
    (∃ r, r = (match i with | .lda _ => Reg.a | _ => Reg.x) ∧ i ≠ .brk ∧ FlagsDescribe s t (t.readReg r) ∧
      ∀ q, q ≠ r → t.readReg q = s.readReg q)

/-! ## The four instructions: the whole step -/

/-- R22: after a step of an instruction that writes a result register, Z and N reflect that register's value; RESET and
POWER_ON are no instructions and leave Z at 0 although both registers are 0. -/
def Obligations.FlagsReflectTheRegisterJustWritten : Prop :=
  (∀ s t : State, s.runState = .running → step s = .next t → s.read8 s.pc ≠ 0x00#8 →
    (s.read8 s.pc = 0xA9#8 ∧ (t.zero = true ↔ t.readReg .a = 0x00#8) ∧ t.negative = (t.readReg .a).getLsbD 7) ∨
    (s.read8 s.pc ≠ 0xA9#8 ∧ (t.zero = true ↔ t.readReg .x = 0x00#8) ∧ t.negative = (t.readReg .x).getLsbD 7)) ∧
  (∀ s : State, s.resetCommand.zero = false ∧ s.resetCommand.readReg .a = 0x00#8 ∧
    s.resetCommand.readReg .x = 0x00#8) ∧
  (∀ s : State, s.powerOn.zero = false ∧ s.powerOn.readReg .a = 0x00#8 ∧ s.powerOn.readReg .x = 0x00#8)

/-- R80: the whole step of an LDA, wherever it stands (at 0xFFFF and 0xFFFE by the spec's decision D1, log 4). -/
def Obligations.LdaStepLoadsTheNextByte : Prop :=
  ∀ s : State, s.runState = .running → s.read8 s.pc = 0xA9#8 →
    ∃ t, step s = .next t ∧ t.readReg .a = s.read8 (s.pc + 1) ∧ FlagsDescribe s t (t.readReg .a) ∧
      t.pc = s.pc + 2 ∧ t.readReg .x = s.readReg .x ∧ SameMemory s t ∧ t.runState = .running

/-- R85: the whole step of a TAX (at 0xFFFF by the spec's decision D1, log 4). -/
def Obligations.TaxStepCopiesTheAccumulator : Prop :=
  ∀ s : State, s.runState = .running → s.read8 s.pc = 0xAA#8 →
    ∃ t, step s = .next t ∧ t.readReg .x = s.readReg .a ∧ FlagsDescribe s t (t.readReg .x) ∧
      t.pc = s.pc + 1 ∧ t.readReg .a = s.readReg .a ∧ SameMemory s t ∧ t.runState = .running

/-- R90: the whole step of an INX, with the flags also said from the old value, as the rule does (at 0xFFFF by the
spec's decision D1, log 4). -/
def Obligations.InxStepIncrementsIndexX : Prop :=
  ∀ s : State, s.runState = .running → s.read8 s.pc = 0xE8#8 →
    ∃ t, step s = .next t ∧ (t.readReg .x).toNat = ((s.readReg .x).toNat + 1) % 256 ∧
      FlagsDescribe s t (t.readReg .x) ∧
      (t.zero = true ↔ s.readReg .x = 0xFF#8) ∧
      (t.negative = true ↔ 0x7F ≤ (s.readReg .x).toNat ∧ (s.readReg .x).toNat ≤ 0xFE) ∧
      t.pc = s.pc + 1 ∧ t.readReg .a = s.readReg .a ∧ SameMemory s t ∧ t.runState = .running

/-- R95: the whole step of a BRK (at 0xFFFF by the spec's decision D1, log 4). -/
def Obligations.BrkStepHalts : Prop :=
  ∀ s : State, s.runState = .running → s.read8 s.pc = 0x00#8 →
    ∃ t, step s = .next t ∧ t.runState = .halted ∧ t.pc = s.pc + 1 ∧ t.status = s.status ∧
      t.readReg .a = s.readReg .a ∧ t.readReg .x = s.readReg .x ∧ SameMemory s t

/-- R60 (with the spec's decision D1, log 4): an instruction may straddle the top of the address space. -/
def Obligations.InstructionMayStraddleTheTop : Prop :=
  ∀ s : State, s.runState = .running → s.pc = 0xFFFF#16 → s.read8 0xFFFF#16 = 0xA9#8 →
    ∃ t, step s = .next t ∧ t.readReg .a = s.read8 0x0000#16 ∧ t.pc = 0x0001#16

/-! ## The step -/

/-- A step runs the decoded instruction (R67 to R71): when the bytes at `pc` decode to a well-formed instruction, the
step of a running core is exec of it at the state with `pc` past the instruction's bytes. That the operand of an opcode
at 0xFFFF is at 0x0000, and that `pc` wraps, is the spec's decision D1 (log 4). -/
def Obligations.StepRunsTheDecodedInstruction : Prop :=
  ∀ (s : State) (i : Instr) (rest : List Byte), s.runState = .running → i.wellFormed = true →
    decode [s.read8 s.pc, s.read8 (s.pc + 1)] = .ok (i, rest) →
    step s = exec i { s with pc := s.pc + BitVec.ofNat 16 (encode i).length }

/-- R72: a step whose opcode is unrecognized is the fatal condition, with the opcode byte and the address it was
fetched from; `pc` is one past the byte and nothing else but `run_state` changes (`Faulted` is the spec's decision D3,
the values held in it D9; log 2; the advance from 0xFFFF is D1, log 4). -/
def Obligations.UnrecognizedOpcodeStopsTheCore : Prop :=
  ∀ s : State, s.runState = .running →
    s.read8 s.pc ≠ 0xA9#8 → s.read8 s.pc ≠ 0xAA#8 → s.read8 s.pc ≠ 0xE8#8 → s.read8 s.pc ≠ 0x00#8 →
    step s = .fault (.unrecognizedOpcode (s.read8 s.pc) s.pc
      { s with pc := s.pc + 1, runState := .faulted .unrecognizedOpcode })

/-- A step never refuses, and it faults only on an unrecognized opcode of a running core or in `Faulted` (R100, R106,
R105). That a step in `Halted` is neither refused nor a fault is the model's choice of log 1 (DESIGN CHOICE); that a
step in `Faulted` is a fault is the model's choice of log 2 (DEDUCED). -/
def Obligations.StepsStopOnlyOnFatalConditions : Prop :=
  ∀ s : State, (∀ r, step s ≠ .refused r) ∧
    ∀ f, step s = .fault f →
      (s.runState = .running ∧ s.read8 s.pc ∉ [0x00#8, 0xA9#8, 0xAA#8, 0xE8#8] ∧
        f.stopped.runState = .faulted .unrecognizedOpcode) ∨
      (∃ c, s.runState = .faulted c ∧ f.stopped = s)

/-- The rows of R65: the `run_state` after a step (outside `Running` a step leaves it, logs 1 and 2) and after each
host command that runs no step (POWER_ON in `Running` apart, log 19). `Faulted` and the row of POWER_ON are the spec's
decisions D3 and D4 (logs 2 and 5). -/
def Obligations.RunStateTransitionsAreTheTable : Prop :=
  (∀ s : State, (settled s (step s)).runState =
    if s.runState = .running then
      if s.read8 s.pc = 0x00#8 then .halted
      else if s.read8 s.pc = 0xA9#8 ∨ s.read8 s.pc = 0xAA#8 ∨ s.read8 s.pc = 0xE8#8 then .running
      else .faulted .unrecognizedOpcode
    else s.runState) ∧
  (∀ (fuel : Nat) (s : State), s.runState ≠ .running →
    ∃ t, s.issue fuel .powerOn = some (.next t) ∧ t.runState = .halted) ∧
  (∀ (fuel : Nat) (s : State), s.runState = .halted →
    (∃ t, s.issue fuel .reset = some (.next t) ∧ t.runState = .halted) ∧
    (∃ t, s.issue fuel .inspect = some (.next t) ∧ t.runState = .halted) ∧
    (∀ program : List Byte, program.length ≤ 0x8000 →
      ∃ t, s.issue fuel (.load program) = some (.next t) ∧ t.runState = .halted) ∧
    (∀ program : List Byte, 0x8000 < program.length →
      ∃ f, s.issue fuel (.load program) = some (.fault f) ∧
        f.stopped.runState = .faulted .programTooLarge) ∧
    s.enterLoop.runState = .running)

/-- A step that goes on has advanced `pc` by the length of the instruction at `pc`, modulo 65536 (R15,
R54; the wrap is R16, the spec's decision D1, log 4). -/
def Obligations.PcAdvancesByTheInstructionLength : Prop :=
  ∀ s t : State, s.runState = .running → step s = .next t →
    ∃ n, instrLength (s.read8 s.pc) = some n ∧ t.pc.toNat = (s.pc.toNat + n) % 65536

/-- R20: no instruction reads Z or N. Whatever value `P` has, a step does the same to everything but `P`. Of a step
in `Halted` and in `Faulted` it says so by the model's choices of logs 1 and 2. -/
def Obligations.StatusNeverInfluencesAStep : Prop :=
  ∀ (s : State) (p : Byte),
    (∀ t, step s = .next t →
      ∃ t', step { s with status := p } = .next t' ∧ { t' with status := t.status } = t) ∧
    (∀ f, step s = .fault f →
      ∃ f', step { s with status := p } = .fault f' ∧ { f'.stopped with status := s.status } = f.stopped)

/-- No instruction writes memory, by exec, by a step or by a whole RUN, whether it ends well or in a fault (R39,
R135). -/
def Obligations.NoRunWritesMemory : Prop :=
  (∀ (i : Instr) (s t : State), exec i s = .next t → t.mem = s.mem) ∧
  (∀ s : State, (settled s (step s)).mem = s.mem) ∧
  (∀ (fuel : Nat) (s : State) (o : Host.Outcome State Fault Refusal),
    s.issue fuel .run = some o → (settled s o).mem = s.mem)

/-- INX in a row (R90, R91): `n` INX bytes from `pc` on add `n` to index_x modulo 256, advance `pc` by `n`, and leave the
accumulator, memory and `run_state`; 256 of them return index_x to its value. Of `P` it says nothing. Where the bytes
run through 0xFFFF it rests on the spec's decision D1 (log 4). -/
def Obligations.ConsecutiveInxAddModulo256 : Prop :=
  ∀ (n : Nat) (s : State), s.runState = .running →
    (∀ k, k < n → s.read8 (s.pc + BitVec.ofNat 16 k) = 0xE8#8) →
    ∃ t : State, Host.Core.run core n s = .next t ∧ t.readReg .x = s.readReg .x + BitVec.ofNat 8 n ∧
      (n = 256 → t.readReg .x = s.readReg .x) ∧
      t.pc = s.pc + BitVec.ofNat 16 n ∧ t.readReg .a = s.readReg .a ∧ t.mem = s.mem ∧ t.runState = .running

/-! ## The invariant -/

/-- The state after reset meets the invariant: memory in canonical form (log 15), `P` one of the three values of R21. -/
def Obligations.ResetMeetsTheInvariant : Prop := State.reset.Inv = true

/-- Every step keeps the invariant: memory in canonical form (log 15), `P` one of 0x00, 0x02, 0x80 (R21, R73); a fatal condition keeps it
too. A step in `Halted` and in `Faulted` is as logs 1 and 2 say. -/
def Obligations.EveryStepKeepsTheInvariant : Prop :=
  ∀ s : State, s.Inv = true →
    (∀ t, step s = .next t → t.Inv = true) ∧ (∀ f, step s = .fault f → f.stopped.Inv = true)

/-- Every host command keeps the invariant, RUN and LOAD_AND_RUN included: memory in canonical form (log 15), and `P` one
of the three values of R21 (by the flag rule R73 inside a run, by R120 and R125 otherwise; the spec derives R21). The
commands as functions beside `step` are log 17, a refused command leaves the state (log 7), the stopped state of a fatal
condition is log 2, and the executor's fuel is log 11. -/
def Obligations.EveryCommandKeepsTheInvariant : Prop :=
  ∀ (fuel : Nat) (s : State) (c : Command) (o : Host.Outcome State Fault Refusal),
    s.Inv = true → s.issue fuel c = some o → (settled s o).Inv = true

/-- R21: the flag rule leaves the six reserved bits, RESET and POWER_ON clear them, and in every reachable state they
are 0 and Z and N are not both 1 (the spec derives this; which states are reachable is log 17). -/
def Obligations.ReachableStatusHasThreeValues : Prop :=
  (∀ (s : State) (v : Byte) (i : Nat), i ∈ [0, 2, 3, 4, 5, 6] →
    (s.setNZ v).status.getLsbD i = s.status.getLsbD i) ∧
  (∀ s : State, s.resetCommand.status = 0x00#8 ∧ s.powerOn.status = 0x00#8) ∧
  (∀ s : State, Reachable s → s.status &&& 0x7D#8 = 0x00#8 ∧
    (s.status = 0x00#8 ∨ s.status = 0x02#8 ∨ s.status = 0x80#8))

/-! ## Host commands -/

/-- POWER_ON (R120): accepted wherever the host can act (log 19); every register 0, every cell 0, `Halted`, whatever
the state was; it is the state after reset. `Halted` is the spec's decision D4 (log 5). -/
def Obligations.PowerOnZeroesEverything : Prop :=
  ∀ (fuel : Nat) (s : State), s.runState ≠ .running →
    ∃ t, s.issue fuel .powerOn = some (.next t) ∧ t.readReg .a = 0x00#8 ∧ t.readReg .x = 0x00#8 ∧
      t.status = 0x00#8 ∧ t.pc = 0x0000#16 ∧ (∀ a : Word, t.read8 a = 0x00#8) ∧ t.runState = .halted ∧
      t = State.reset

/-- R124 (which the spec derives): the state after a legal LOAD, cell by cell, and everything it leaves. That the vector
wins where the program reaches it is the spec's decision D6 (log 6). -/
def Obligations.LoadWritesTheProgramAndTheVector : Prop :=
  ∀ (fuel : Nat) (s : State) (program : List Byte), s.runState = .halted → s.mem.wf = true →
    program.length ≤ 0x8000 →
    ∃ t, s.issue fuel (.load program) = some (.next t) ∧ { t with mem := s.mem } = s ∧
      ∀ a : Word, t.read8 a =
        if a = 0xFFFC#16 then 0x00#8
        else if a = 0xFFFD#16 then 0x80#8
        else if 0x8000 ≤ a.toNat ∧ a.toNat < 0x8000 + program.length then
          program.getD (a.toNat - 0x8000) 0x00#8
        else s.read8 a

/-- R123: LOAD of more than 0x8000 bytes is the fatal condition ProgramTooLarge with the length, before anything is
written (the spec's decision D5, log 6). -/
def Obligations.OversizedLoadIsFatalAndWritesNothing : Prop :=
  ∀ (fuel : Nat) (s : State) (program : List Byte), s.runState = .halted → 0x8000 < program.length →
    s.issue fuel (.load program) =
      some (.fault (.programTooLarge program.length { s with runState := .faulted .programTooLarge }))

/-- R125: RESET clears both registers and all of `P`, and takes `pc` from the reset vector; memory and `run_state` are
unchanged. -/
def Obligations.ResetClearsRegistersAndLoadsTheVector : Prop :=
  ∀ (fuel : Nat) (s : State), s.runState = .halted →
    ∃ t, s.issue fuel .reset = some (.next t) ∧ t.readReg .a = 0x00#8 ∧ t.readReg .x = 0x00#8 ∧
      t.status = 0x00#8 ∧
      t.pc = (s.read8 0xFFFC#16).setWidth 16 ||| ((s.read8 0xFFFD#16).setWidth 16 <<< 8) ∧
      SameMemory s t ∧ t.runState = s.runState

/-- R126: RESET does not write memory and is idempotent; on a core never loaded it gives 0x0000, after any LOAD
0x8000, and in every reachable state one of the two (the spec derives this; which states are reachable is log 17). For
a program that reaches the vector it rests on the spec's decision D6 (log 6). -/
def Obligations.ResetIsIdempotentAndFindsTheOrigin : Prop :=
  (∀ s : State, s.resetCommand.mem = s.mem ∧ s.resetCommand.resetCommand = s.resetCommand) ∧
  State.reset.resetCommand.pc = 0x0000#16 ∧
  (∀ (s : State) (program : List Byte), s.mem.wf = true → program.length ≤ 0x8000 →
    (s.loadProgram program).resetCommand.pc = 0x8000#16) ∧
  (∀ s : State, Reachable s → s.resetCommand.pc = 0x0000#16 ∨ s.resetCommand.pc = 0x8000#16)

/-- R127: LOAD_AND_RUN is LOAD, RESET, RUN with nothing between them; an oversized program stops it at the
LOAD (the spec's decision D17, log 7). -/
def Obligations.LoadAndRunIsTheThreeCommands : Prop :=
  ∀ (fuel : Nat) (s : State) (program : List Byte),
    s.session fuel [.loadAndRun program] = s.session fuel [.load program, .reset, .run] ∧
    (s.runState = .halted → 0x8000 < program.length →
      s.issue fuel (.loadAndRun program) = s.issue fuel (.load program))

/-- R128: a command is refused exactly where the table does not accept it, and then it has no transition (the
spec's decision D7, logs 7 and 19). -/
def Obligations.CommandsAreAcceptedAsTheTableSays : Prop :=
  ∀ (fuel : Nat) (s : State) (c : Command),
    ((∃ r, s.issue fuel c = some (.refused r)) ↔
      s.runState = .running ∨ ((∃ cause, s.runState = .faulted cause) ∧ c ≠ .powerOn)) ∧
    (∀ r, s.issue fuel c = some (.refused r) → s.session fuel [c] = some s)

/-- R129: INSPECT returns the four registers where it is accepted and changes nothing; memory may be observed in
`Halted` (the spec's decision D10, log 8). -/
def Obligations.InspectReturnsTheRegistersAndChangesNothing : Prop :=
  ∀ (fuel : Nat) (s : State),
    (s.runState = .halted →
      s.inspect = some { accumulator := s.accumulator, indexX := s.indexX, status := s.status,
                         programCounter := s.pc } ∧
      s.issue fuel .inspect = some (.next s) ∧ ∀ a : Word, s.observeMemory a = some (s.read8 a)) ∧
    (s.runState ≠ .halted → s.inspect = none)

/-- R105: `Faulted` is terminal. No step is performed in it and POWER_ON is the only command accepted (the
spec's decision D3; that a step there is a fault outcome is log 2). -/
def Obligations.FaultedIsTerminal : Prop :=
  ∀ (s : State) (cause : FatalCause), s.runState = .faulted cause →
    step s = .fault (.stuckInFaulted cause s) ∧
    (∀ (fuel : Nat) (c : Command), c ≠ .powerOn → s.session fuel [c] = some s) ∧
    (∀ fuel : Nat, s.session fuel [.powerOn] = some State.reset)

/-! ## Runs -/

/-- R66: RUN sets `run_state` to `Running`, changes nothing else, and steps while it is `Running`
(that it is accepted again after a halt is the spec's decision D13, log 13). -/
def Obligations.RunStepsWhileRunning : Prop :=
  (∀ (fuel : Nat) (s : State), s.runState = .halted →
    s.issue fuel .run = State.loop fuel { s with runState := .running }) ∧
  (∀ (fuel : Nat) (s t : State), s.runState = .running → step s = .next t →
    State.loop (fuel + 1) s = State.loop fuel t) ∧
  (∀ (fuel : Nat) (s : State) (f : Fault), s.runState = .running → step s = .fault f →
    State.loop (fuel + 1) s = some (.fault f)) ∧
  (∀ (fuel : Nat) (s : State), s.runState ≠ .running → State.loop fuel s = some (.next s)) ∧
  (∀ (fuel : Nat) (s t : State), s.issue fuel .run = some (.next t) → t.runState ≠ .running)

/-- A RUN from a BRK (R95, R131): one step, `pc` one past the BRK, every other register and all memory as they were.
A RUN of a core just powered on is one. At 0xFFFF `pc` wraps by the spec's decision D1 (log 4); the executor's fuel is
log 11. -/
def Obligations.RunFromABrkIsOneStep : Prop :=
  (∀ (fuel : Nat) (s : State), s.runState = .halted → s.read8 s.pc = 0x00#8 →
    s.issue (fuel + 1) .run = some (.next { s with pc := s.pc + 1 })) ∧
  State.reset.session 1 [.run] = some { State.reset with pc := 0x0001#16 }

/-- The result of a RUN does not depend on the executor's fuel (R6, R75; log 11), and the host interface's own run
of a running core agrees with the loop (logs 1 and 17). -/
def Obligations.RunResultDoesNotDependOnFuel : Prop :=
  ∀ (m n : Nat) (s : State) (o : Host.Outcome State Fault Refusal), State.loop m s = some o →
    (m ≤ n → State.loop n s = some o) ∧ (∀ o', State.loop n s = some o' → o' = o) ∧
    (s.runState = .running → m ≤ n → Host.Core.run core n s = o)

/-- The ways a run ends (R135): correctly, with 0x00 in the cell before the final `pc` (that it was fetched as an opcode,
RunsEndCorrectlyExactlyAtABrk says); in a fault, by an unrecognized opcode; or never. One of the three, memory unchanged.
`Faulted` as a fault outcome is log 2 (the spec's D3), `pc - 1` and `address + 1` at the wrap rest on the spec's decision
D1 (log 4), and the executor's fuel is log 11. -/
def Obligations.RunsEndByBrkOrUnrecognizedOpcode : Prop :=
  (∀ s : State, s.runState = .running →
    (∃ t, EndsCorrectly s t) ∨ (∃ f, EndsInFault s f) ∨ NeverEnds s) ∧
  (∀ (s t : State) (f : Fault), EndsCorrectly s t → ¬ EndsInFault s f ∧ ¬ NeverEnds s) ∧
  (∀ (s : State) (f : Fault), EndsInFault s f → ¬ NeverEnds s) ∧
  (∀ s t : State, s.runState = .running → EndsCorrectly s t →
    t.mem = s.mem ∧ t.read8 (t.pc - 1) = 0x00#8) ∧
  (∀ (s : State) (f : Fault), s.runState = .running → EndsInFault s f →
    ∃ opcode address, f = .unrecognizedOpcode opcode address f.stopped ∧
      opcode ∉ [0x00#8, 0xA9#8, 0xAA#8, 0xE8#8] ∧ f.stopped.read8 address = opcode ∧
      f.stopped.pc = address + 1 ∧ f.stopped.mem = s.mem ∧
      f.stopped.runState = .faulted .unrecognizedOpcode)

/-- A run with no reachable BRK and no reachable unrecognized opcode never ends (R75): `reach` holds of the addresses
at which an opcode is fetched. The wrap of `pc` is the spec's decision D1 (log 4), that a run has no time-out D16
(log 11). -/
def Obligations.RunWithoutReachableStopNeverEnds : Prop :=
  ∀ (s : State) (reach : Word → Prop), s.runState = .running → reach s.pc →
    (∀ a : Word, reach a →
      (s.read8 a = 0xA9#8 ∧ reach (a + 2)) ∨
      ((s.read8 a = 0xAA#8 ∨ s.read8 a = 0xE8#8) ∧ reach (a + 1))) →
    NeverEnds s

/-- R76: after a legal LOAD and a RESET, every RUN completes; the first within 0x7FFD steps, all together within
0x7FFE; and `pc` stays in 0x8000 to 0xFFFD in every state a run passes through, so it never wraps
(the spec derives this). For a program that reaches the vector it rests on the spec's decision D6 (log 6); the
executor's fuel and the step counts are log 11. -/
def Obligations.RunsAfterLoadAndResetTerminate : Prop :=
  ∀ (s : State) (program : List Byte) (fuel n : Nat), s.runState = .halted → s.mem.wf = true →
    program.length ≤ 0x8000 → 0x7FFD ≤ fuel →
    ∃ t u : State, s.session fuel [.load program, .reset] = some t ∧
      t.issue 0x7FFD .run ≠ none ∧
      t.session fuel (List.replicate n .run) = some u ∧
      t.runsStepCount fuel n ≤ 0x7FFE ∧
      (u.runState = .halted → ∀ (k : Nat) (v : State), Host.Core.run core k u.enterLoop = .next v →
        0x8000 ≤ v.pc.toNat ∧ v.pc.toNat ≤ 0xFFFD)

/-! ## Assembly notation -/

/-- The notation of R61 (the spec's decision D12): the two programs the source writes out assemble to the source's own
bytes. The third text is the model's own example, not the source's: it separates by a line break, which R61 allows, and
that a line break is the single character LF is the model's choice (DESIGN CHOICE, log 9), as is that the blanks after
the commas are passed over. -/
def Obligations.SourceExamplesAssemble : Prop :=
  assemble ['L', 'D', 'A', ' ', '5', ',', ' ', 'B', 'R', 'K'] = some [0xA9#8, 0x05#8, 0x00#8] ∧
  assemble ['L', 'D', 'A', ' ', '0', 'x', 'C', '0', ',', ' ', 'T', 'A', 'X', ',', ' ', 'I', 'N', 'X', ',', ' ',
    'B', 'R', 'K'] = some [0xA9#8, 0xC0#8, 0xAA#8, 0xE8#8, 0x00#8] ∧
  assemble ['L', 'D', 'A', ' ', '0', 'x', '0', '0', '\n', 'B', 'R', 'K'] = some [0xA9#8, 0x00#8, 0x00#8]

/-- A program written out in the notation of R61 (the model's writing of it, log 9) assembles to its instructions'
bytes in order. -/
def Obligations.WrittenProgramsAssembleToTheirBytes : Prop :=
  ∀ program : List Instr, assemble (programText program) = some (program.flatMap encode)

/-! ## Statements added after the review -/

/-- The reset vector holds 0x0000 or the origin (R126): the state after reset has this, and memory in canonical form. -/
def Obligations.ResetVectorIsKnownAfterReset : Prop :=
  State.reset.mem.wf = true ∧ State.reset.vectorKnown = true

/-- Every step and every host command keeps that: from every state with memory in canonical form (log 15) whose reset
vector holds 0x0000 or 0x8000, whatever the step or the command answers, the state it leaves is one (R126, without
reachability). After a LOAD of a program that reaches the vector it rests on the spec's decision D6 (log 6); steps outside
`Running` are as logs 1 and 2 say, the commands as functions beside `step` are log 17, a refused command leaves the state
(log 7), and the executor's fuel is log 11. -/
def Obligations.EveryStepAndCommandKeepsTheResetVector : Prop :=
  ∀ s : State, s.mem.wf = true → s.vectorKnown = true →
    ((settled s (step s)).mem.wf = true ∧ (settled s (step s)).vectorKnown = true) ∧
    ∀ (fuel : Nat) (c : Command) (o : Host.Outcome State Fault Refusal), s.issue fuel c = some o →
      (settled s o).mem.wf = true ∧ (settled s o).vectorKnown = true

/-- A run of a running core ends correctly exactly when a byte 0x00 is fetched as an opcode (R135): the run passes through
a running state with 0x00 at its `pc`, and the step from there gives the final state. The fuel behind EndsCorrectly is
log 11. -/
def Obligations.RunsEndCorrectlyExactlyAtABrk : Prop :=
  ∀ s t : State, s.runState = .running →
    (EndsCorrectly s t ↔
      ∃ (n : Nat) (u : State), Host.Core.run core n s = .next u ∧ u.runState = .running ∧
        u.read8 u.pc = 0x00#8 ∧ step u = .next t)
end

