-- ==== Sys2Proof/Laws/Memory.lean ====
section
/-! SUPPORT. The laws of memory: what a read sees after a write, and that every memory operation keeps the canonical
form. -/

namespace Sys2Proof.Machine.Memory

theorem wfFrom_cons {low k : Nat} {b : Byte} {rest : Memory} :
    wfFrom low ((k, b) :: rest) = true ↔
      low ≤ k ∧ k < Config.memSize ∧ b ≠ unlisted ∧ wfFrom (k + 1) rest = true := by
  simp [wfFrom, and_assoc]

theorem wfFrom_mono {low low' : Nat} {m : Memory} (h : low' ≤ low) (hm : wfFrom low m = true) :
    wfFrom low' m = true := by
  cases m with
  | nil => rfl
  | cons p rest =>
    obtain ⟨h1, h2, h3, h4⟩ := wfFrom_cons.1 hm
    exact wfFrom_cons.2 ⟨h.trans h1, h2, h3, h4⟩

/-- Below its least key a canonical list lists nothing. -/
theorem lookup_below {low key : Nat} {m : Memory} (hm : wfFrom low m = true) (h : key < low) :
    lookup m key = unlisted := by
  induction m generalizing low with
  | nil => rfl
  | cons p rest ih =>
    obtain ⟨h1, -, -, h4⟩ := wfFrom_cons.1 hm
    rw [lookup, if_neg (by omega), ih h4 (by omega)]

theorem store_wfFrom {low key : Nat} {v : Byte} {m : Memory} (hm : wfFrom low m = true) (hl : low ≤ key)
    (hk : key < Config.memSize) : wfFrom low (store m key v) = true := by
  induction m generalizing low with
  | nil =>
    by_cases hv : v = unlisted
    · simp [store, hv, wfFrom]
    · simp only [store, hv, if_false]
      exact wfFrom_cons.2 ⟨hl, hk, hv, rfl⟩
  | cons p rest ih =>
    obtain ⟨k, b⟩ := p
    obtain ⟨h1, h2, h3, h4⟩ := wfFrom_cons.1 hm
    unfold store
    split
    · split
      · exact hm
      · exact wfFrom_cons.2 ⟨hl, hk, ‹_›, wfFrom_cons.2 ⟨by omega, h2, h3, h4⟩⟩
    · split
      · split
        · exact wfFrom_mono (by omega) h4
        · exact wfFrom_cons.2 ⟨hl, hk, ‹_›, wfFrom_mono (by omega) h4⟩
      · exact wfFrom_cons.2 ⟨h1, h2, h3, ih h4 (by omega)⟩

theorem lookup_store_same {low key : Nat} {v : Byte} {m : Memory} (hm : wfFrom low m = true) :
    lookup (store m key v) key = v := by
  induction m generalizing low with
  | nil => by_cases hv : v = unlisted <;> simp [store, lookup, hv]
  | cons p rest ih =>
    obtain ⟨k, b⟩ := p
    obtain ⟨-, -, -, h4⟩ := wfFrom_cons.1 hm
    unfold store
    split
    · split
      · rw [lookup, if_neg (by omega), lookup_below h4 (by omega)]; exact (‹v = _›).symm
      · rw [lookup, if_pos rfl]
    · split
      · split
        · rw [lookup_below h4 (by omega)]; exact (‹v = _›).symm
        · rw [lookup, if_pos rfl]
      · rw [lookup, if_neg (fun e => ‹¬key = k› e.symm), ih h4]

/-- A store leaves every other key alone, canonical form or not. -/
theorem lookup_store_other {key other : Nat} {v : Byte} {m : Memory} (hne : other ≠ key) :
    lookup (store m key v) other = lookup m other := by
  have hk : key ≠ other := hne.symm
  induction m with
  | nil => by_cases hv : v = unlisted <;> simp [store, lookup, hv, hk]
  | cons p rest ih =>
    obtain ⟨k, b⟩ := p
    unfold store
    split
    · split
      · rfl
      · simp [lookup, hk]
    · split
      · split <;> simp_all [lookup]
      · simp [lookup, ih]

theorem toNat_lt_memSize (a : Word) : a.toNat < Config.memSize := a.isLt

theorem wf_write8 {m : Memory} (hm : m.wf = true) (a : Word) (v : Byte) : (m.write8 a v).wf = true :=
  store_wfFrom hm (Nat.zero_le _) (toNat_lt_memSize a)

theorem read8_write8_same {m : Memory} (hm : m.wf = true) (a : Word) (v : Byte) : (m.write8 a v).read8 a = v :=
  lookup_store_same hm

theorem read8_write8_other (m : Memory) {a b : Word} (v : Byte) (h : b ≠ a) :
    (m.write8 a v).read8 b = m.read8 b :=
  lookup_store_other (fun e => h (BitVec.eq_of_toNat_eq e))

theorem wf_write16 {m : Memory} (hm : m.wf = true) (a v : Word) : (m.write16 a v).wf = true :=
  wf_write8 (wf_write8 hm _ _) _ _

theorem wf_copy {m : Memory} (hm : m.wf = true) (a : Word) (bytes : List Byte) : (m.copy a bytes).wf = true := by
  induction bytes generalizing m a with
  | nil => exact hm
  | cons b rest ih => exact ih (wf_write8 hm a b) _

/-- A copy leaves every cell alone that no byte of it goes to. -/
theorem read8_copy_other (m : Memory) (a b : Word) (bytes : List Byte)
    (h : ∀ i, i < bytes.length → b ≠ a + BitVec.ofNat 16 i) : (m.copy a bytes).read8 b = m.read8 b := by
  induction bytes generalizing m a with
  | nil => rfl
  | cons v rest ih =>
    rw [copy, ih, read8_write8_other]
    · simpa using h 0 (by simp)
    · intro i hi e
      refine h (i + 1) (by simpa using hi) ?_
      rw [e, BitVec.add_assoc, BitVec.add_comm 1, BitVec.ofNat_add]
      rfl

/-- After a copy of at most 65536 bytes, each byte stands at its own address. -/
theorem read8_copy_same {m : Memory} (hm : m.wf = true) (a : Word) (bytes : List Byte)
    (hlen : bytes.length ≤ Config.memSize) (i : Nat) (hi : i < bytes.length) :
    (m.copy a bytes).read8 (a + BitVec.ofNat 16 i) = bytes[i] := by
  induction bytes generalizing m a i with
  | nil => simp at hi
  | cons v rest ih =>
    simp only [List.length_cons, Config.memSize] at hlen hi
    cases i with
    | zero =>
      rw [copy, read8_copy_other]
      · simpa using read8_write8_same hm a v
      · intro j hj
        bv_omega
    | succ j =>
      have e : a + BitVec.ofNat 16 (j + 1) = a + 1 + BitVec.ofNat 16 j := by
        rw [BitVec.add_assoc, BitVec.add_comm 1, BitVec.ofNat_add]; rfl
      rw [copy, e, ih (wf_write8 hm a v) (a + 1) (by simp only [Config.memSize]; omega) j (by omega)]
      rfl

/-- A memory of nothing reads as 0 everywhere (R31). -/
@[simp] theorem read8_nil (a : Word) : read8 [] a = 0x00#8 := rfl

theorem wf_nil : wf [] = true := rfl

end Sys2Proof.Machine.Memory
end

