-- ==== Sys2Proof/Laws/Decode.lean ====
section
/-! SUPPORT. The decoder and the length table, one lemma per opcode, and the case split every other proof cites. -/

namespace Sys2Proof

@[simp] theorem decode_brk (rest : List Byte) : decode (0x00#8 :: rest) = .ok (.brk, rest) := rfl
@[simp] theorem decode_lda (imm8 : Byte) (rest : List Byte) :
    decode (0xA9#8 :: imm8 :: rest) = .ok (.lda imm8, rest) := rfl
@[simp] theorem decode_tax (rest : List Byte) : decode (0xAA#8 :: rest) = .ok (.tax, rest) := rfl
@[simp] theorem decode_inx (rest : List Byte) : decode (0xE8#8 :: rest) = .ok (.inx, rest) := rfl

@[simp] theorem instrLength_brk : instrLength 0x00#8 = some 1 := rfl
@[simp] theorem instrLength_lda : instrLength 0xA9#8 = some 2 := rfl
@[simp] theorem instrLength_tax : instrLength 0xAA#8 = some 1 := rfl
@[simp] theorem instrLength_inx : instrLength 0xE8#8 = some 1 := rfl

/-- The byte is none of the four opcodes of R56. -/
abbrev Unrecognized (b : Byte) : Prop := b ≠ 0x00#8 ∧ b ≠ 0xA9#8 ∧ b ≠ 0xAA#8 ∧ b ≠ 0xE8#8

/-- Every byte is one of the four opcodes or unrecognized. -/
theorem opcode_cases (b : Byte) :
    b = 0x00#8 ∨ b = 0xA9#8 ∨ b = 0xAA#8 ∨ b = 0xE8#8 ∨ Unrecognized b := by
  unfold Unrecognized; tauto

theorem decode_of_unrecognized {b : Byte} (h : Unrecognized b) (rest : List Byte) :
    decode (b :: rest) = .error (.unrecognizedOpcode b) := by
  simp [decode, Config.opcBrk, Config.opcLdaImm, Config.opcTax, Config.opcInx, h.1, h.2.1, h.2.2.1, h.2.2.2]

theorem instrLength_of_unrecognized {b : Byte} (h : Unrecognized b) : instrLength b = none := by
  simp [instrLength, Config.opcBrk, Config.opcLdaImm, Config.opcTax, Config.opcInx, h.1, h.2.1, h.2.2.1, h.2.2.2]

/-- What a successful decode is: one of the four instructions, with the bytes it took. -/
theorem decode_ok_cases {bytes rest : List Byte} {i : Instr} (h : decode bytes = .ok (i, rest)) :
    (i = .brk ∧ bytes = 0x00#8 :: rest) ∨ (∃ v, i = .lda v ∧ bytes = 0xA9#8 :: v :: rest) ∨
      (i = .tax ∧ bytes = 0xAA#8 :: rest) ∨ (i = .inx ∧ bytes = 0xE8#8 :: rest) := by
  cases bytes with
  | nil => cases h
  | cons b bs =>
    rcases opcode_cases b with rfl | rfl | rfl | rfl | hu
    · rw [decode_brk] at h; cases h; exact .inl ⟨rfl, rfl⟩
    · cases bs with
      | nil => cases h
      | cons v bs => rw [decode_lda] at h; cases h; exact .inr (.inl ⟨v, rfl, rfl⟩)
    · rw [decode_tax] at h; cases h; exact .inr (.inr (.inl ⟨rfl, rfl⟩))
    · rw [decode_inx] at h; cases h; exact .inr (.inr (.inr ⟨rfl, rfl⟩))
    · rw [decode_of_unrecognized hu] at h; cases h

end Sys2Proof
end

