-- ==== Sys2Proof/Laws/State.lean ====
section
/-! SUPPORT. One lemma per field per update of State. -/

namespace Sys2Proof.Machine

section writeReg
variable (s : State) (r : Reg) (v : Byte)

@[simp] theorem State.writeReg_status : (s.writeReg r v).status = s.status := by cases r <;> rfl
@[simp] theorem State.writeReg_pc : (s.writeReg r v).pc = s.pc := by cases r <;> rfl
@[simp] theorem State.writeReg_mem : (s.writeReg r v).mem = s.mem := by cases r <;> rfl
@[simp] theorem State.writeReg_runState : (s.writeReg r v).runState = s.runState := by cases r <;> rfl
@[simp] theorem State.writeReg_a_accumulator : (s.writeReg .a v).accumulator = v := rfl
@[simp] theorem State.writeReg_a_indexX : (s.writeReg .a v).indexX = s.indexX := rfl
@[simp] theorem State.writeReg_x_accumulator : (s.writeReg .x v).accumulator = s.accumulator := rfl
@[simp] theorem State.writeReg_x_indexX : (s.writeReg .x v).indexX = v := rfl
@[simp] theorem State.readReg_writeReg_same : (s.writeReg r v).readReg r = v := by cases r <;> rfl
@[simp] theorem State.readReg_a : s.readReg .a = s.accumulator := rfl
@[simp] theorem State.readReg_x : s.readReg .x = s.indexX := rfl

theorem State.readReg_writeReg_other {q : Reg} (h : q ≠ r) : (s.writeReg r v).readReg q = s.readReg q := by
  cases r <;> cases q <;> first | rfl | exact absurd rfl h

end writeReg

section setNZ
variable (s : State) (v : Byte)

@[simp] theorem State.setNZ_accumulator : (s.setNZ v).accumulator = s.accumulator := rfl
@[simp] theorem State.setNZ_indexX : (s.setNZ v).indexX = s.indexX := rfl
@[simp] theorem State.setNZ_status : (s.setNZ v).status = flagsOf s.status v := rfl
@[simp] theorem State.setNZ_pc : (s.setNZ v).pc = s.pc := rfl
@[simp] theorem State.setNZ_mem : (s.setNZ v).mem = s.mem := rfl
@[simp] theorem State.setNZ_runState : (s.setNZ v).runState = s.runState := rfl
@[simp] theorem State.setNZ_readReg (q : Reg) : (s.setNZ v).readReg q = s.readReg q := by cases q <;> rfl

end setNZ

section writeResult
variable (s : State) (r : Reg) (v : Byte)

@[simp] theorem State.writeResult_status : (s.writeResult r v).status = flagsOf s.status v := by
  simp [State.writeResult]
@[simp] theorem State.writeResult_pc : (s.writeResult r v).pc = s.pc := by simp [State.writeResult]
@[simp] theorem State.writeResult_mem : (s.writeResult r v).mem = s.mem := by simp [State.writeResult]
@[simp] theorem State.writeResult_runState : (s.writeResult r v).runState = s.runState := by
  simp [State.writeResult]
@[simp] theorem State.writeResult_a_accumulator : (s.writeResult .a v).accumulator = v := rfl
@[simp] theorem State.writeResult_a_indexX : (s.writeResult .a v).indexX = s.indexX := rfl
@[simp] theorem State.writeResult_x_accumulator : (s.writeResult .x v).accumulator = s.accumulator := rfl
@[simp] theorem State.writeResult_x_indexX : (s.writeResult .x v).indexX = v := rfl

end writeResult

section advancePc
variable (s : State)

@[simp] theorem State.advancePc_accumulator : s.advancePc.accumulator = s.accumulator := rfl
@[simp] theorem State.advancePc_indexX : s.advancePc.indexX = s.indexX := rfl
@[simp] theorem State.advancePc_status : s.advancePc.status = s.status := rfl
@[simp] theorem State.advancePc_pc : s.advancePc.pc = s.pc + 1 := rfl
@[simp] theorem State.advancePc_mem : s.advancePc.mem = s.mem := rfl
@[simp] theorem State.advancePc_runState : s.advancePc.runState = s.runState := rfl
@[simp] theorem State.advancePc_read8 (a : Word) : s.advancePc.read8 a = s.read8 a := rfl

end advancePc

section setRunState
variable (s : State) (r : RunState)

@[simp] theorem State.setRunState_accumulator : (s.setRunState r).accumulator = s.accumulator := rfl
@[simp] theorem State.setRunState_indexX : (s.setRunState r).indexX = s.indexX := rfl
@[simp] theorem State.setRunState_status : (s.setRunState r).status = s.status := rfl
@[simp] theorem State.setRunState_pc : (s.setRunState r).pc = s.pc := rfl
@[simp] theorem State.setRunState_mem : (s.setRunState r).mem = s.mem := rfl
@[simp] theorem State.setRunState_runState : (s.setRunState r).runState = r := rfl
@[simp] theorem State.raiseFatal_eq (c : FatalCause) : s.raiseFatal c = s.setRunState (.faulted c) := rfl

end setRunState

section write8
variable (s : State) (a : Word) (v : Byte)

@[simp] theorem State.write8_accumulator : (s.write8 a v).accumulator = s.accumulator := rfl
@[simp] theorem State.write8_indexX : (s.write8 a v).indexX = s.indexX := rfl
@[simp] theorem State.write8_status : (s.write8 a v).status = s.status := rfl
@[simp] theorem State.write8_pc : (s.write8 a v).pc = s.pc := rfl
@[simp] theorem State.write8_mem : (s.write8 a v).mem = s.mem.write8 a v := rfl
@[simp] theorem State.write8_runState : (s.write8 a v).runState = s.runState := rfl

end write8

section write16
variable (s : State) (a v : Word)

@[simp] theorem State.write16_accumulator : (s.write16 a v).accumulator = s.accumulator := rfl
@[simp] theorem State.write16_indexX : (s.write16 a v).indexX = s.indexX := rfl
@[simp] theorem State.write16_status : (s.write16 a v).status = s.status := rfl
@[simp] theorem State.write16_pc : (s.write16 a v).pc = s.pc := rfl
@[simp] theorem State.write16_mem : (s.write16 a v).mem = s.mem.write16 a v := rfl
@[simp] theorem State.write16_runState : (s.write16 a v).runState = s.runState := rfl

end write16

end Sys2Proof.Machine
end

