-- ==== Sys2Proof/Laws/Step.lean ====
section
/-! SUPPORT. What the fetch and a step can do, said once. -/

namespace Sys2Proof.Machine

/-- A fetch of one byte. -/
theorem State.fetch_of_length_one {s : State} {opcode : Byte} (h : s.read8 s.pc = opcode)
    (hl : bytesConsumed opcode = 1) : s.fetch = ([opcode], s.advancePc) := by
  rw [State.fetch, h, hl]; simp [State.consume, h]

/-- A fetch of an opcode and its immediate operand. -/
theorem State.fetch_lda {s : State} (h : s.read8 s.pc = 0xA9#8) :
    s.fetch = ([0xA9#8, s.read8 (s.pc + 1)], s.advancePc.advancePc) := by
  rw [State.fetch, h]; simp [bytesConsumed, State.consume, h]

theorem bytesConsumed_of_unrecognized {b : Byte} (h : Unrecognized b) : bytesConsumed b = 1 := by
  rw [bytesConsumed, instrLength_of_unrecognized h]; rfl

theorem step_of_running {s : State} (h : s.runState = .running) : step s = s.cycle := by simp [step, h]

/-- A step whose opcode byte is BRK's. -/
theorem step_brk {s : State} (hr : s.runState = .running) (h : s.read8 s.pc = 0x00#8) :
    step s = exec .brk s.advancePc := by
  rw [step_of_running hr, State.cycle, State.fetch_of_length_one h rfl, decode_brk]

/-- A step whose opcode byte is LDA's. -/
theorem step_lda {s : State} (hr : s.runState = .running) (h : s.read8 s.pc = 0xA9#8) :
    step s = exec (.lda (s.read8 (s.pc + 1))) s.advancePc.advancePc := by
  rw [step_of_running hr, State.cycle, State.fetch_lda h, decode_lda]

/-- A step whose opcode byte is TAX's. -/
theorem step_tax {s : State} (hr : s.runState = .running) (h : s.read8 s.pc = 0xAA#8) :
    step s = exec .tax s.advancePc := by
  rw [step_of_running hr, State.cycle, State.fetch_of_length_one h rfl, decode_tax]

/-- A step whose opcode byte is INX's. -/
theorem step_inx {s : State} (hr : s.runState = .running) (h : s.read8 s.pc = 0xE8#8) :
    step s = exec .inx s.advancePc := by
  rw [step_of_running hr, State.cycle, State.fetch_of_length_one h rfl, decode_inx]

/-- A step whose opcode byte is none of the four. -/
theorem step_unrecognized {s : State} (hr : s.runState = .running) (h : Unrecognized (s.read8 s.pc)) :
    step s = .fault (unrecognizedOpcode (s.read8 s.pc) s.advancePc) := by
  rw [step_of_running hr, State.cycle,
    State.fetch_of_length_one rfl (bytesConsumed_of_unrecognized h), decode_of_unrecognized h]

/-- Everything a step of a running core can do: the four instructions, or the fatal condition. -/
theorem step_running_cases {s : State} (hr : s.runState = .running) :
    (s.read8 s.pc = 0x00#8 ∧ step s = .next (s.advancePc.setRunState .halted)) ∨
    (s.read8 s.pc = 0xA9#8 ∧
      step s = .next (s.advancePc.advancePc.writeResult .a (s.read8 (s.pc + 1)))) ∨
    (s.read8 s.pc = 0xAA#8 ∧ step s = .next (s.advancePc.writeResult .x s.accumulator)) ∨
    (s.read8 s.pc = 0xE8#8 ∧ step s = .next (s.advancePc.writeResult .x (s.indexX + 1))) ∨
    (Unrecognized (s.read8 s.pc) ∧
      step s = .fault (unrecognizedOpcode (s.read8 s.pc) s.advancePc)) := by
  rcases opcode_cases (s.read8 s.pc) with h | h | h | h | h
  · exact .inl ⟨h, step_brk hr h⟩
  · exact .inr (.inl ⟨h, step_lda hr h⟩)
  · exact .inr (.inr (.inl ⟨h, step_tax hr h⟩))
  · exact .inr (.inr (.inr (.inl ⟨h, step_inx hr h⟩)))
  · exact .inr (.inr (.inr (.inr ⟨h, step_unrecognized hr h⟩)))

theorem step_of_halted {s : State} (h : s.runState = .halted) : step s = .next s := by
  simp [step, h, State.idle]

theorem step_of_faulted {s : State} {c : FatalCause} (h : s.runState = .faulted c) :
    step s = .fault (.stuckInFaulted c s) := by
  simp [step, h, State.stuck]

/-- No step writes memory (R39), whatever it answers. -/
theorem step_next_mem {s t : State} (h : step s = .next t) : t.mem = s.mem := by
  cases hr : s.runState with
  | running =>
    rcases step_running_cases hr with ⟨-, e⟩ | ⟨-, e⟩ | ⟨-, e⟩ | ⟨-, e⟩ | ⟨-, e⟩ <;> rw [e] at h <;> cases h <;> simp
  | halted => rw [step_of_halted hr] at h; cases h; rfl
  | faulted c => rw [step_of_faulted hr] at h; cases h

/-- No step is refused. -/
theorem step_not_refused (s : State) (r : Refusal) : step s ≠ .refused r := by
  intro h
  cases hr : s.runState with
  | running =>
    rcases step_running_cases hr with ⟨-, e⟩ | ⟨-, e⟩ | ⟨-, e⟩ | ⟨-, e⟩ | ⟨-, e⟩ <;> rw [e] at h <;> cases h
  | halted => rw [step_of_halted hr] at h; cases h
  | faulted c => rw [step_of_faulted hr] at h; cases h

end Sys2Proof.Machine
end

