-- ==== Sys2Proof/Laws/Commands.lean ====
section
/-! SUPPORT. The host commands field by field, and what issuing one and running the loop can do. -/

namespace Sys2Proof.Machine

section fields
variable (s : State) (program : List Byte)

@[simp] theorem State.loadProgram_accumulator : (s.loadProgram program).accumulator = s.accumulator := rfl
@[simp] theorem State.loadProgram_indexX : (s.loadProgram program).indexX = s.indexX := rfl
@[simp] theorem State.loadProgram_status : (s.loadProgram program).status = s.status := rfl
@[simp] theorem State.loadProgram_pc : (s.loadProgram program).pc = s.pc := rfl
@[simp] theorem State.loadProgram_runState : (s.loadProgram program).runState = s.runState := rfl

@[simp] theorem State.resetCommand_accumulator : s.resetCommand.accumulator = 0x00#8 := rfl
@[simp] theorem State.resetCommand_indexX : s.resetCommand.indexX = 0x00#8 := rfl
@[simp] theorem State.resetCommand_status : s.resetCommand.status = 0x00#8 := rfl
@[simp] theorem State.resetCommand_pc : s.resetCommand.pc = s.read16 0xFFFC#16 := rfl
@[simp] theorem State.resetCommand_mem : s.resetCommand.mem = s.mem := rfl
@[simp] theorem State.resetCommand_runState : s.resetCommand.runState = s.runState := rfl

@[simp] theorem State.enterLoop_eq : s.enterLoop = s.setRunState .running := rfl

end fields

theorem State.loadProgram_wf {s : State} (h : s.mem.wf = true) (program : List Byte) :
    (s.loadProgram program).mem.wf = true := Memory.wf_write16 (Memory.wf_copy h _ _) _ _

/-- What LOAD can answer. -/
theorem State.load_cases (s : State) (program : List Byte) :
    (program.length ≤ 0x8000 ∧ s.load program = .next (s.loadProgram program)) ∨
    (0x8000 < program.length ∧
      s.load program = .fault (.programTooLarge program.length (s.setRunState (.faulted .programTooLarge)))) := by
  unfold State.load programFits Config.maxProgramLen
  by_cases h : program.length ≤ 0x8000
  · exact .inl ⟨h, by simp [h]⟩
  · exact .inr ⟨by omega, by simp [h]⟩

/-- One turn of the loop. -/
theorem State.loop_running_next {fuel : Nat} {s t : State} (hr : s.runState = .running) (h : step s = .next t) :
    State.loop (fuel + 1) s = State.loop fuel t := by simp [State.loop, hr, h]

theorem State.loop_running_fault {fuel : Nat} {s : State} {f : Fault} (hr : s.runState = .running)
    (h : step s = .fault f) : State.loop (fuel + 1) s = some (.fault f) := by simp [State.loop, hr, h]

theorem State.loop_not_running {fuel : Nat} {s : State} (hr : s.runState ≠ .running) :
    State.loop fuel s = some (.next s) := by cases fuel <;> simp [State.loop, hr]

theorem State.loop_zero_running {s : State} (hr : s.runState = .running) : State.loop 0 s = none := by
  simp [State.loop, hr]

theorem State.issue_accepted {fuel : Nat} {s : State} {c : Command} (h : s.runState.accepts c = true) :
    s.issue fuel c = c.perform fuel s := by simp [State.issue, h]

theorem State.issue_not_accepted {fuel : Nat} {s : State} {c : Command} (h : s.runState.accepts c = false) :
    s.issue fuel c = some (.refused (.commandNotAccepted s.runState)) := by simp [State.issue, h]

end Sys2Proof.Machine
end

