-- ==== Sys2Proof/Laws/Flags.lean ====
section
/-! SUPPORT. The flag rule bit by bit. -/

namespace Sys2Proof.Machine

/-- Every bit of the status byte SetNZ leaves (R73). -/
theorem getLsbD_flagsOf (p v : Byte) (i : Nat) :
    (flagsOf p v).getLsbD i =
      if i = 1 then decide (v = 0x00#8) else if i = 7 then v.getLsbD 7 else p.getLsbD i := by
  rcases Nat.lt_or_ge i 8 with h | h
  · by_cases hv : v = 0x00#8
    · subst hv
      interval_cases i <;>
        simp [flagsOf, Config.reservedMask, Config.zMask, Config.nMask, BitVec.getLsbD_eq_getElem,
          BitVec.getElem_and, BitVec.getElem_or]
    · interval_cases i <;>
        simp [flagsOf, Config.reservedMask, Config.nMask, BitVec.getLsbD_eq_getElem,
          BitVec.getElem_and, BitVec.getElem_or, hv]
  · rw [BitVec.getLsbD_of_ge _ _ h, BitVec.getLsbD_of_ge p _ h, if_neg (by omega), if_neg (by omega)]

/-- The flag rule does not see the flags it replaces. -/
theorem flagsOf_flagsOf (p v w : Byte) : flagsOf (flagsOf p v) w = flagsOf p w := by
  apply BitVec.eq_of_getLsbD_eq
  intro i _
  simp only [getLsbD_flagsOf]
  split
  · rfl
  · split <;> rfl

/-- From a status whose reserved bits are 0 the flag rule gives one of the three values of R21. -/
theorem flagsOf_legal {p : Byte} (h : p &&& Config.reservedMask = 0x00#8) (v : Byte) :
    flagsOf p v = if v = 0x00#8 then 0x02#8 else if v.getLsbD 7 then 0x80#8 else 0x00#8 := by
  unfold flagsOf
  rw [h]
  revert v
  decide

end Sys2Proof.Machine
end

