-- ==== Sys2Proof/Laws/PerInstr.lean ====
section
/-! SUPPORT. The per-instruction families of LAWS.json, one lemma per constructor. -/

/-- The encoding of an instruction has the length its opcode byte announces (R54), and the instruction is well
formed (R55). -/
def Sys2Proof.Laws.EncodedLength.Statement (i : Sys2Proof.Instr) : Prop :=
  i.wellFormed = true ∧ ∃ opcode operands, Sys2Proof.encode i = opcode :: operands ∧
    Sys2Proof.instrLength opcode = some (operands.length + 1)

theorem Sys2Proof.Laws.EncodedLength.brk : Sys2Proof.Laws.EncodedLength.Statement .brk :=
  ⟨rfl, _, _, rfl, rfl⟩

theorem Sys2Proof.Laws.EncodedLength.lda (imm8 : Sys2Proof.Byte) :
    Sys2Proof.Laws.EncodedLength.Statement (.lda imm8) := ⟨rfl, _, _, rfl, rfl⟩

theorem Sys2Proof.Laws.EncodedLength.tax : Sys2Proof.Laws.EncodedLength.Statement .tax :=
  ⟨rfl, _, _, rfl, rfl⟩

theorem Sys2Proof.Laws.EncodedLength.inx : Sys2Proof.Laws.EncodedLength.Statement .inx :=
  ⟨rfl, _, _, rfl, rfl⟩
end

