-- ==== Sys2Proof/Laws/Safety.lean ====
section
/-! SUPPORT. Lemmas for statements about runs: the flags of a written result, the invariant's parts, what a step leaves
of memory when it faults, and the one induction over the loop. -/

namespace Sys2Proof.Machine

/-- A status byte the flag rule left describes the result. -/
theorem flagsDescribe_of_status {s t : State} {v : Byte} (h : t.status = flagsOf s.status v) :
    FlagsDescribe s t v := by
  refine ⟨?_, ?_, fun i h1 h7 => ?_⟩
  · simp only [State.zero, h, Config.zBit, getLsbD_flagsOf]; rfl
  · simp only [State.negative, h, Config.nBit, getLsbD_flagsOf]; rfl
  · rw [h, getLsbD_flagsOf, if_neg h1, if_neg h7]

/-- The parts of the invariant. -/
theorem State.inv_iff {s : State} : s.Inv = true ↔
    s.mem.wf = true ∧ (s.status = 0x00#8 ∨ s.status = 0x02#8 ∨ s.status = 0x80#8) := by
  simp [State.Inv, State.legalStatus, or_assoc]

/-- Every instruction's meaning answers a next state. -/
theorem exec_next (i : Instr) (s : State) : ∃ t, exec i s = .next t := by cases i <;> exact ⟨_, rfl⟩

/-- A step that faults leaves memory as it was. -/
theorem step_fault_mem {s : State} {f : Fault} (h : step s = .fault f) : f.stopped.mem = s.mem := by
  cases hr : s.runState with
  | running =>
    rcases step_running_cases hr with ⟨-, e⟩ | ⟨-, e⟩ | ⟨-, e⟩ | ⟨-, e⟩ | ⟨-, e⟩ <;> rw [e] at h <;> cases h
    rfl
  | halted => rw [step_of_halted hr] at h; cases h
  | faulted c => rw [step_of_faulted hr] at h; cases h; rfl

/-- The induction over RUN's loop: what every step of a running core keeps holds of the state the loop ends in, which
does not run, or of the stopped state of the fault it ends in. The loop is never refused. -/
theorem State.loop_induction {P : State → Prop}
    (hnext : ∀ s t, s.runState = .running → step s = .next t → P s → P t)
    (hfault : ∀ s f, s.runState = .running → step s = .fault f → P s → P f.stopped)
    {fuel : Nat} {s : State} {o : Host.Outcome State Fault Refusal} (h : State.loop fuel s = some o) (hs : P s) :
    (∃ t, o = .next t ∧ P t ∧ t.runState ≠ .running) ∨ (∃ f, o = .fault f ∧ P f.stopped) := by
  induction fuel generalizing s with
  | zero =>
    by_cases hr : s.runState = .running
    · rw [State.loop_zero_running hr] at h; cases h
    · rw [State.loop_not_running hr] at h; cases h; exact .inl ⟨_, rfl, hs, hr⟩
  | succ n ih =>
    by_cases hr : s.runState = .running
    · cases e : step s with
      | next t => rw [State.loop_running_next hr e] at h; exact ih h (hnext s t hr e hs)
      | fault f => rw [State.loop_running_fault hr e] at h; cases h; exact .inr ⟨_, rfl, hfault s f hr e hs⟩
      | refused r => exact absurd e (step_not_refused s r)
    · rw [State.loop_not_running hr] at h; cases h; exact .inl ⟨_, rfl, hs, hr⟩

/-- One step of the host interface's run. -/
theorem core_run_next {n : Nat} {s t : State} (h : step s = .next t) :
    Host.Core.run core (n + 1) s = Host.Core.run core n t := by
  have h' : core.step s = .next t := h
  simp only [Host.Core.run, h']

theorem core_run_fault {n : Nat} {s : State} {f : Fault} (h : step s = .fault f) :
    Host.Core.run core (n + 1) s = .fault f := by
  have h' : core.step s = .fault f := h
  simp only [Host.Core.run, h']

end Sys2Proof.Machine
end

