-- ==== Sys2Proof/Tests/Slice0.lean ====
section
/-! SUPPORT. The model's own tests. Expected values are those of spec/95_test_vectors.md (the vector's id stands at the
test) or are worked out by hand from the rules cited. The last part shows, for every statement with hypotheses, a state
and operands that meet them together. -/

namespace Sys2Proof.Tests

open Sys2Proof Sys2Proof.Machine

/-- A running core with the given bytes at `pc`. -/
def at_ (accumulator indexX status : Byte) (pc : Word) (bytes : List Byte) : State :=
  { accumulator, indexX, status, pc, mem := Memory.copy [] pc bytes, runState := .running }

/-- The registers and `run_state` of a step's next state. -/
def after (o : Host.Outcome State Fault Refusal) : Option (Byte × Byte × Byte × Word × RunState) :=
  match o with
  | .next t => some (t.accumulator, t.indexX, t.status, t.pc, t.runState)
  | .fault _ => none
  | .refused _ => none

/-- The fault of a step. -/
def faultOf (o : Host.Outcome State Fault Refusal) : Option Fault :=
  match o with
  | .next _ => none
  | .fault f => some f
  | .refused _ => none

/-! ## Well-formedness -/

/-- R55: every instruction term is well formed, the operand 0x00 included. -/
theorem test_every_instruction_well_formed :
    Instr.wellFormed .brk ∧ Instr.wellFormed (.lda 0x00#8) ∧ Instr.wellFormed (.lda 0xFF#8) ∧
      Instr.wellFormed .tax ∧ Instr.wellFormed .inx := by decide

/-- R123, O6, O7: 0x8000 bytes fit, 0x8001 do not. -/
theorem test_program_of_0x8001_bytes_ill_formed :
    programFits (List.replicate 0x8000 0xE8#8) = true ∧ programFits (List.replicate 0x8001 0xE8#8) = false := by
  simp only [programFits, List.length_replicate]; decide

/-- The canonical form refuses keys out of order, a key twice, a listed 0, and a key outside the address space. -/
theorem test_ill_formed_memories_refused :
    Memory.wf [(2, 0x01#8), (1, 0x01#8)] = false ∧ Memory.wf [(1, 0x01#8), (1, 0x02#8)] = false ∧
      Memory.wf [(1, 0x00#8)] = false ∧ Memory.wf [(65536, 0x01#8)] = false ∧
      Memory.wf [(1, 0x01#8), (65535, 0x02#8)] = true := by decide

/-! ## Decoding: words written out bit by bit from R51, R52, R56 -/

theorem test_decode_brk : decodeTableWord 8 0b00000000 = some .brk := by decide
/-- The operand byte is the second byte, bits 15..8: 0x7F above 1010_1001. -/
theorem test_decode_lda : decodeTableWord 16 0b01111111_10101001 = some (.lda 0x7F#8) := by decide
theorem test_decode_tax : decodeTableWord 8 0b10101010 = some .tax := by decide
theorem test_decode_inx : decodeTableWord 8 0b11101000 = some .inx := by decide

/-- S9: of the 256 byte values exactly four decode. -/
theorem test_decode_exactly_four :
    ∀ b : Byte, (decodeTableWord 8 b.toNat).isSome = decide (b ∈ [0x00#8, 0xA9#8, 0xAA#8, 0xE8#8]) := by decide

/-- The edges of the ranges of R57 (UO1 to UO7). -/
theorem test_decode_range_edges :
    ([0x00, 0x01, 0xA8, 0xA9, 0xAA, 0xAB, 0xE7, 0xE8, 0xE9, 0xEA, 0xFF].map fun b => (decodeTableWord 8 b).isSome) =
      [true, false, false, true, true, false, false, true, false, false, false] := by decide

/-- L6, DC5: an operand that equals an opcode is data, and the byte after it is the next opcode. -/
theorem test_decode_operand_is_data :
    (decode [0xA9#8, 0xE8#8, 0xE8#8]).toOption = some (.lda 0xE8#8, [0xE8#8]) := by decide

theorem test_decode_names_rejections :
    (match decode [] with | .error e => some e | .ok _ => none) = some .noOpcode ∧
    (match decode [0xA9#8] with | .error e => some e | .ok _ => none) = some (.operandMissing 0xA9#8) ∧
    (match decode [0xEA#8] with | .error e => some e | .ok _ => none) = some (.unrecognizedOpcode 0xEA#8) := by
  decide

/-! ## Memory -/

/-- M3, M5, M6. -/
theorem test_write16_then_odd_reads :
    let s := State.reset.write16 0x1234#16 0xBEEF#16
    s.read8 0x1234#16 = 0xEF#8 ∧ s.read8 0x1235#16 = 0xBE#8 ∧ s.read16 0x1235#16 = 0x00BE#16 ∧
      s.read16 0x1233#16 = 0xEF00#16 := by decide

/-- M7, M8. -/
theorem test_write16_wraps_at_top :
    let s := State.reset.write16 0xFFFF#16 0xABCD#16
    s.read8 0xFFFF#16 = 0xCD#8 ∧ s.read8 0x0000#16 = 0xAB#8 ∧ s.read16 0xFFFF#16 = 0xABCD#16 := by decide

/-- M11: the high byte is widened before the shift. -/
theorem test_read16_widens_before_shift :
    ((State.reset.write8 0x00FF#16 0x80#8).write8 0x0100#16 0x01#8).read16 0x00FF#16 = 0x0180#16 := by decide

/-- Writing 0 removes the entry. -/
theorem test_write_of_zero_is_unlisted :
    ((State.reset.write8 0x1234#16 0xAB#8).write8 0x1234#16 0x00#8) = State.reset := by decide

/-! ## Flags -/

/-- F4 to F10, the reserved bits among them. -/
theorem test_flag_rule_vectors :
    flagsOf 0x02#8 0x7F#8 = 0x00#8 ∧ flagsOf 0x02#8 0xFF#8 = 0x80#8 ∧ flagsOf 0x80#8 0x00#8 = 0x02#8 ∧
      flagsOf 0x7D#8 0x00#8 = 0x7F#8 ∧ flagsOf 0x7D#8 0x80#8 = 0xFD#8 ∧ flagsOf 0xFF#8 0x01#8 = 0x7D#8 ∧
      flagsOf 0x82#8 0x40#8 = 0x00#8 := by decide

/-! ## Steps -/

/-- L3. -/
theorem test_lda_negative : after (step (at_ 0x00 0x11 0x02 0x8000 [0xA9, 0x80])) =
    some (0x80, 0x11, 0x80, 0x8002, .running) := by decide
/-- L8: the operand is read at 0x0000. -/
theorem test_lda_straddles_top : after (step (at_ 0x00 0x00 0x00 0xFFFF [0xA9, 0x33])) =
    some (0x33, 0x00, 0x00, 0x0001, .running) := by decide
/-- T2. -/
theorem test_tax_zero : after (step (at_ 0x00 0x37 0x00 0x8000 [0xAA])) =
    some (0x00, 0x00, 0x02, 0x8001, .running) := by decide
/-- T4. -/
theorem test_tax_negative : after (step (at_ 0x80 0x00 0x02 0x8000 [0xAA])) =
    some (0x80, 0x80, 0x80, 0x8001, .running) := by decide
/-- I3. -/
theorem test_inx_to_negative : after (step (at_ 0x00 0x7F 0x00 0x8000 [0xE8])) =
    some (0x00, 0x80, 0x80, 0x8001, .running) := by decide
/-- I5. -/
theorem test_inx_wraps : after (step (at_ 0x00 0xFF 0x80 0x8000 [0xE8])) =
    some (0x00, 0x00, 0x02, 0x8001, .running) := by decide
/-- B2: `P` is not rewritten. -/
theorem test_brk_keeps_status : after (step (at_ 0x00 0x00 0x02 0x8003 [0x00])) =
    some (0x00, 0x00, 0x02, 0x8004, .halted) := by decide
/-- B4. -/
theorem test_brk_at_top : after (step (at_ 0x00 0x00 0x00 0xFFFF [0x00])) =
    some (0x00, 0x00, 0x00, 0x0000, .halted) := by decide

/-- UO7: 0xEA is not a no-op; registers held, `pc` one past the byte. -/
theorem test_unrecognized_opcode : faultOf (step (at_ 0x11 0x22 0x80 0x9000 [0xEA])) =
    some (.unrecognizedOpcode 0xEA 0x9000
      { at_ 0x11 0x22 0x80 0x9000 [0xEA] with pc := 0x9001, runState := .faulted .unrecognizedOpcode }) := by decide

/-- Each table row, presented after reset, is the instruction the next step runs (log 12). -/
theorem test_presented_rows_run_first :
    ([(8, 0x00), (16, 0x80A9), (8, 0xAA), (8, 0xE8)].map fun r => after (step (State.reset.withFetchWord r.1 r.2))) =
      [some (0x00, 0x00, 0x00, 0x0001, .halted), some (0x80, 0x00, 0x80, 0x0002, .running),
       some (0x00, 0x00, 0x02, 0x0001, .running), some (0x00, 0x01, 0x00, 0x0001, .running)] := by decide

/-! ## Host commands -/

/-- RS3, RS5: RESET after a run clears Z although A = 0, and takes `pc` from the vector. -/
theorem test_reset_clears_flags :
    let s := { (State.reset.write16 0xFFFC#16 0x8000#16) with status := 0x02#8, pc := 0x8003#16 }
    s.resetCommand = { State.reset with pc := 0x8000#16, mem := s.mem } := by decide

/-- H1: a RUN right after POWER_ON. -/
theorem test_run_after_power_on :
    State.reset.session 1 [.powerOn, .run] = some { State.reset with pc := 0x0001#16 } := by decide

/-- O3 and the rows of R124 at their edges: below the program, its first and last byte, behind it, around the vector. -/
theorem test_load_at_the_edges :
    let s := (State.reset.write8 0x7FFF#16 0x11#8).write8 0x8003#16 0x22#8
    let t := (s.write8 0xFFFE#16 0x33#8).loadProgram [0xA9#8, 0x05#8, 0x77#8]
    [0x7FFF, 0x8000, 0x8002, 0x8003, 0xFFFB, 0xFFFC, 0xFFFD, 0xFFFE].map t.read8 =
      [0x11, 0xA9, 0x77, 0x22, 0x00, 0x00, 0x80, 0x33] := by decide

/-- R76's number of steps of one RUN, on the BRK of fresh memory. -/
theorem test_step_count_of_a_brk : State.reset.runsStepCount 5 1 = 1 := by decide

/-! ## Assembly notation -/

/-- R61: `#` and `$` are no notation of this spec, and 256 is no byte value. -/
theorem test_assembly_rejections :
    assemble ['L', 'D', 'A', ' ', '#', '5'] = none ∧ assemble ['L', 'D', 'A', ' ', '$', 'C', '0'] = none ∧
      assemble ['L', 'D', 'A', ' ', '2', '5', '6'] = none ∧ assemble ['N', 'O', 'P'] = none ∧
      assemble ['L', 'D', 'A', ' ', '2', '5', '5'] = some [0xA9#8, 0xFF#8] := by decide

/-! ## Witnesses -/

/-- A memory in canonical form that lists cells at both ends. -/
def ends : State := { State.reset with mem := [(0, 0x33#8), (0x8000, 0xE8#8), (0xFFFF, 0xA9#8)] }

/-- ByteReadReturnsWhatWasLastWritten, WordWriteSetsItsTwoCells, WordAccessWrapsAtTheTop,
WriteThenReadGivesTheValueWritten, PresentedTableWordRunsAsDecoded (the word is LDA 0x80) and
ResetIsIdempotentAndFindsTheOrigin. -/
theorem witness_memory_wf :
    ends.mem.wf = true ∧ (ends.write8 0x0000#16 0x01#8).mem.wf = true ∧
      decodeTableWord 16 0x80A9 = some (.lda 0x80#8) ∧ ([] : List Byte).length ≤ 0x8000 := by decide

/-- CanonicalMemoriesThatReadAlikeAreEqual: two memories written in different orders. -/
theorem witness_CanonicalMemoriesThatReadAlikeAreEqual :
    ∃ m m' : Memory, m.wf = true ∧ m'.wf = true ∧ ∀ a : Word, m.read8 a = m'.read8 a :=
  ⟨((Memory.write8 [] 1 5).write8 2 6), ((Memory.write8 [] 2 6).write8 1 5), by decide, by decide, fun _ => rfl⟩

/-- The hypotheses of a step statement: a running core with an opcode at `pc`, at an address that wraps and at one that
does not. -/
theorem witness_LdaStepLoadsTheNextByte :
    ∃ s : State, s.runState = .running ∧ s.read8 s.pc = 0xA9#8 := ⟨at_ 0 0 0 0xFFFE [0xA9, 0x90], by decide, by decide⟩
theorem witness_TaxStepCopiesTheAccumulator :
    ∃ s : State, s.runState = .running ∧ s.read8 s.pc = 0xAA#8 := ⟨at_ 1 0xFF 0x80 0x8000 [0xAA], by decide, by decide⟩
theorem witness_InxStepIncrementsIndexX :
    ∃ s : State, s.runState = .running ∧ s.read8 s.pc = 0xE8#8 := ⟨at_ 0 0xFF 0x80 0x8000 [0xE8], by decide, by decide⟩
theorem witness_BrkStepHalts :
    ∃ s : State, s.runState = .running ∧ s.read8 s.pc = 0x00#8 := ⟨at_ 0 0 2 0xFFFF [0x00], by decide, by decide⟩
theorem witness_InstructionMayStraddleTheTop :
    ∃ s : State, s.runState = .running ∧ s.pc = 0xFFFF#16 ∧ s.read8 0xFFFF#16 = 0xA9#8 :=
  ⟨at_ 0 0 0 0xFFFF [0xA9, 0x33], by decide, by decide, by decide⟩

/-- FlagsReflectTheRegisterJustWritten and PcAdvancesByTheInstructionLength: a step that goes on, for each of the two
registers written. -/
theorem witness_FlagsReflectTheRegisterJustWritten :
    (∃ s t : State, s.runState = .running ∧ step s = .next t ∧ s.read8 s.pc = 0xA9#8) ∧
    (∃ s t : State, s.runState = .running ∧ step s = .next t ∧ s.read8 s.pc = 0xAA#8) ∧
    (∃ s t : State, s.runState = .running ∧ step s = .next t ∧ s.read8 s.pc = 0xE8#8) :=
  ⟨⟨at_ 0 0 0 0x8000 [0xA9, 0x00], _, rfl, step_lda rfl (by decide), by decide⟩,
   ⟨at_ 0 1 0 0x8000 [0xAA], _, rfl, step_tax rfl (by decide), by decide⟩,
   ⟨at_ 0 0xFF 0x80 0x8000 [0xE8], _, rfl, step_inx rfl (by decide), by decide⟩⟩

/-- RegisterWritesAndFlagWritesGoTogether and NoRunWritesMemory: exec answers a next state, for each clause. -/
theorem witness_RegisterWritesAndFlagWritesGoTogether :
    (∃ t, exec .brk ends = .next t) ∧ (∃ t, exec (.lda 0x00#8) ends = .next t) ∧
      (∃ t, exec .tax ends = .next t) ∧ ∃ t, exec .inx ends = .next t := ⟨⟨_, rfl⟩, ⟨_, rfl⟩, ⟨_, rfl⟩, ⟨_, rfl⟩⟩

/-- StepRunsTheDecodedInstruction and DecodeIsTheInverseOfEncode: each of the four instructions at `pc` of a running core. -/
theorem witness_StepRunsTheDecodedInstruction :
    ∀ i ∈ [Instr.brk, .lda 0xE8#8, .tax, .inx], ∃ (s : State) (rest : List Byte),
      s.runState = .running ∧ i.wellFormed = true ∧
        decode [s.read8 s.pc, s.read8 (s.pc + 1)] = .ok (i, rest) := by
  intro i hi
  simp only [List.mem_cons, List.not_mem_nil, or_false] at hi
  rcases hi with rfl | rfl | rfl | rfl
  · exact ⟨at_ 0 0 0 0x8000 [0x00], _, rfl, rfl, rfl⟩
  · exact ⟨at_ 0 0 0 0x8000 [0xA9, 0xE8], _, rfl, rfl, rfl⟩
  · exact ⟨at_ 0 0 0 0x8000 [0xAA], _, rfl, rfl, rfl⟩
  · exact ⟨at_ 0 0 0 0x8000 [0xE8], _, rfl, rfl, rfl⟩

/-- UnrecognizedOpcodeStopsTheCore and the fault clauses: at the edges of the ranges of R57. -/
theorem witness_UnrecognizedOpcodeStopsTheCore :
    ∀ b ∈ [0x01#8, 0xA8#8, 0xAB#8, 0xE7#8, 0xE9#8, 0xFF#8],
      (at_ 0 0 0 0x9000 [b]).runState = .running ∧ (at_ 0 0 0 0x9000 [b]).read8 (at_ 0 0 0 0x9000 [b]).pc = b ∧
        b ≠ 0xA9#8 ∧ b ≠ 0xAA#8 ∧ b ≠ 0xE8#8 ∧ b ≠ 0x00#8 ∧
        (faultOf (step (at_ 0 0 0 0x9000 [b]))).isSome = true := by decide

/-- ExactlyTheOtherOpcodesAreUnrecognized and LengthIsAFunctionOfTheOpcode: a decode that succeeds, of one byte and of
two. -/
theorem witness_LengthIsAFunctionOfTheOpcode :
    decode (0xE8#8 :: [0x07#8]) = .ok (.inx, [0x07#8]) ∧ decode (0xA9#8 :: [0x07#8]) = .ok (.lda 0x07#8, []) :=
  ⟨rfl, rfl⟩

/-- StepsStopOnlyOnFatalConditions, StatusNeverInfluencesAStep, EveryStepKeepsTheInvariant: a step that goes on and one
that faults, from states that meet the invariant, a stuck one among them. -/
theorem witness_steps_from_the_invariant :
    (at_ 0 0xFF 0x80 0x8000 [0xE8]).Inv = true ∧ (after (step (at_ 0 0xFF 0x80 0x8000 [0xE8]))).isSome = true ∧
    (at_ 0 0 0x02 0x8000 [0x80]).Inv = true ∧ (faultOf (step (at_ 0 0 0x02 0x8000 [0x80]))).isSome = true ∧
    ({ ends with runState := .faulted .programTooLarge } : State).Inv = true ∧
    (faultOf (step { ends with runState := .faulted .programTooLarge })).isSome = true := by decide

/-- EveryCommandKeepsTheInvariant and NoRunWritesMemory: a RUN that completes with a fault (the first opcode is 0x33),
and one that completes with a halt. -/
theorem witness_EveryCommandKeepsTheInvariant :
    ends.Inv = true ∧ (∃ f, ends.issue 1 .run = some (.fault f)) ∧
      (∃ t, State.reset.issue 1 .run = some (.next t)) ∧ State.reset.Inv = true :=
  ⟨by decide, ⟨_, rfl⟩, ⟨_, rfl⟩, by decide⟩

/-- ReachableStatusHasThreeValues and ResetIsIdempotentAndFindsTheOrigin: reachable states after reset, inside a run, and after its end. -/
theorem witness_Reachable : Reachable State.reset ∧ Reachable State.reset.enterLoop ∧
    Reachable (settled State.reset.enterLoop (step State.reset.enterLoop)) :=
  ⟨.reset, .enterLoop .reset rfl, .step (.enterLoop .reset rfl) rfl⟩

/-- RunStateTransitionsAreTheTable, PowerOnZeroesEverything, LoadWritesTheProgramAndTheVector,
OversizedLoadIsFatalAndWritesNothing, ResetClearsRegistersAndLoadsTheVector, LoadAndRunIsTheThreeCommands,
InspectReturnsTheRegistersAndChangesNothing, FaultedIsTerminal, RunFromABrkIsOneStep: a halted core at a BRK, a program
that fits (the longest) and one that does not (the shortest), and a faulted core. -/
theorem witness_host_commands :
    State.reset.runState = .halted ∧ State.reset.runState ≠ .running ∧ State.reset.mem.wf = true ∧
      (List.replicate 0x8000 0xE8#8).length ≤ 0x8000 ∧ 0x8000 < (List.replicate 0x8001 0xE8#8).length ∧
      ({ State.reset with runState := .faulted .unrecognizedOpcode } : State).runState =
        .faulted .unrecognizedOpcode ∧
      State.reset.read8 State.reset.pc = 0x00#8 := by
  simp only [List.length_replicate]; decide

/-- CommandsAreAcceptedAsTheTableSays: a refused command in each of the two states that refuse. -/
theorem witness_CommandsAreAcceptedAsTheTableSays :
    (∃ r, (at_ 0 0 0 0x8000 [0xE8]).issue 1 .powerOn = some (.refused r)) ∧
    (∃ r, State.issue 1 { ends with runState := .faulted .unrecognizedOpcode } .reset = some (.refused r)) :=
  ⟨⟨_, rfl⟩, ⟨_, rfl⟩⟩

/-- RunStepsWhileRunning, clause by clause: a running core that steps on, one that faults, a core that does not run, and
a RUN that completes. -/
theorem witness_RunStepsWhileRunning :
    (∃ s t : State, s.runState = .running ∧ step s = .next t) ∧
    (∃ (s : State) (f : Fault), s.runState = .running ∧ step s = .fault f) ∧
    (∃ s : State, s.runState ≠ .running) ∧ (∃ s t : State, s.issue 1 .run = some (.next t)) :=
  ⟨⟨at_ 0 0 0 0x8000 [0xAA], _, rfl, rfl⟩, ⟨at_ 0 0 0 0x8000 [0xEA], _, rfl, rfl⟩,
   ⟨State.reset, by decide⟩, ⟨State.reset, _, rfl⟩⟩

/-- RunResultDoesNotDependOnFuel and RunsEndByBrkOrUnrecognizedOpcode: a running core whose loop ends in a halt, and one
whose loop ends in a fault. -/
theorem witness_runs_that_end :
    (∃ s t : State, s.runState = .running ∧ State.loop 1 s = some (.next t) ∧ EndsCorrectly s t) ∧
    (∃ (s : State) (f : Fault), s.runState = .running ∧ State.loop 1 s = some (.fault f) ∧ EndsInFault s f) :=
  ⟨⟨at_ 5 0 0 0x8002 [0x00], _, rfl, rfl, 1, rfl, rfl⟩, ⟨at_ 0 0 0 0xFFFD [0x80], _, rfl, rfl, 1, rfl⟩⟩

/-- A memory every cell of which from `start` on, `n` of them, holds INX's opcode. -/
def inxCells (start : Nat) : Nat → Memory
  | 0 => []
  | n + 1 => (start, 0xE8#8) :: inxCells (start + 1) n

theorem lookup_inxCells (n start key : Nat) (h : start ≤ key) (h' : key < start + n) :
    Memory.lookup (inxCells start n) key = 0xE8#8 := by
  induction n generalizing start with
  | zero => omega
  | succ n ih =>
    by_cases e : start = key
    · simp [inxCells, Memory.lookup, e]
    · rw [inxCells, Memory.lookup, if_neg e]; exact ih _ (by omega) (by omega)

/-- A running core whose whole memory is INX. -/
def allInx : State := { State.reset with mem := inxCells 0 65536, runState := .running }

theorem read8_allInx (a : Word) : allInx.read8 a = 0xE8#8 :=
  lookup_inxCells 65536 0 a.toNat (Nat.zero_le _) (by have := a.isLt; omega)

/-- RunWithoutReachableStopNeverEnds: a core whose whole memory is INX, every address reached. -/
theorem witness_RunWithoutReachableStopNeverEnds :
    ∃ (s : State) (reach : Word → Prop), s.runState = .running ∧ reach s.pc ∧
      ∀ a : Word, reach a → (s.read8 a = 0xA9#8 ∧ reach (a + 2)) ∨
        ((s.read8 a = 0xAA#8 ∨ s.read8 a = 0xE8#8) ∧ reach (a + 1)) :=
  ⟨allInx, fun _ => True, rfl, trivial, fun a _ => .inr ⟨.inr (read8_allInx a), trivial⟩⟩

/-- ConsecutiveInxAddModulo256, at n = 256. -/
theorem witness_ConsecutiveInxAddModulo256 :
    ∃ s : State, s.runState = .running ∧ ∀ k, k < 256 → s.read8 (s.pc + BitVec.ofNat 16 k) = 0xE8#8 :=
  ⟨allInx, rfl, fun _ _ => read8_allInx _⟩

/-- RunsAfterLoadAndResetTerminate: the core after reset, the empty program, the least fuel, and a RUN that leaves the
core halted at each `n` of 0 and 1. -/
theorem witness_RunsAfterLoadAndResetTerminate :
    State.reset.runState = .halted ∧ State.reset.mem.wf = true ∧ ([] : List Byte).length ≤ 0x8000 ∧
      0x7FFD ≤ 0x7FFD ∧
      (State.reset.session 1 [.load [], .reset, .run]).map (fun u => (u.runState, u.pc)) =
        some (.halted, 0x8001#16) := by decide

/-- EveryStepAndCommandKeepsTheResetVector: a vector of 0x0000 and one of 0x8000, each with a command that completes. -/
theorem witness_EveryStepAndCommandKeepsTheResetVector :
    (State.reset.mem.wf = true ∧ State.reset.vectorKnown = true ∧ ∃ o, State.reset.issue 1 .run = some o) ∧
    ((State.reset.loadProgram [0xE8#8]).mem.wf = true ∧ (State.reset.loadProgram [0xE8#8]).vectorKnown = true ∧
      (State.reset.loadProgram [0xE8#8]).read16 0xFFFC#16 = 0x8000#16 ∧
      ∃ o, (State.reset.loadProgram [0xE8#8]).issue 0 (.load [0x00#8]) = some o) :=
  ⟨⟨by decide, by decide, _, rfl⟩, by decide, by decide, by decide, _, rfl⟩

/-- RunsEndCorrectlyExactlyAtABrk, both sides: a run of a TAX and a BRK. -/
theorem witness_RunsEndCorrectlyExactlyAtABrk :
    ∃ s t : State, s.runState = .running ∧ EndsCorrectly s t ∧
      ∃ (n : Nat) (u : State), Host.Core.run core n s = .next u ∧ u.runState = .running ∧
        u.read8 u.pc = 0x00#8 ∧ step u = .next t :=
  ⟨at_ 0 0 0 0xFFFE [0xAA], _, rfl, ⟨2, rfl, rfl⟩, 1, _, core_run_next rfl, rfl, by decide, rfl⟩

end Sys2Proof.Tests
end

section
/-! The flags after a step (R22): Z and N describe the register the instruction has just written. -/

namespace Sys2Proof.Machine

@[simp] theorem State.readReg_writeResult_same (s : State) (r : Reg) (v : Byte) :
    (s.writeResult r v).readReg r = v := by simp only [State.writeResult, setNZ_readReg, readReg_writeReg_same]

/-- The flag rule applied to a written result (R73, R74). -/
theorem flagsDescribe_writeResult (s : State) (r : Reg) (v : Byte) :
    FlagsDescribe s (s.writeResult r v) v :=
  flagsDescribe_of_status (State.writeResult_status s r v)

/-- The register written is the one the flags reflect, whichever register it is and whatever value it takes. -/
theorem writeResult_flags_reflect (s : State) (r : Reg) (v : Byte) :
    ((s.writeResult r v).zero = true ↔ (s.writeResult r v).readReg r = 0x00#8) ∧
      (s.writeResult r v).negative = ((s.writeResult r v).readReg r).getLsbD 7 := by
  obtain ⟨hz, hn, -⟩ := flagsDescribe_writeResult s r v
  rw [State.readReg_writeResult_same]
  exact ⟨by rw [hz, decide_eq_true_iff], hn⟩

theorem State.zero_of_status_zero {s : State} (h : s.status = 0x00#8) : s.zero = false := by
  rw [State.zero, h]; rfl

/-- A step of a running core that goes on and is not BRK's ends in the write of a result: to the accumulator exactly
where the opcode is LDA's, to index_x otherwise (R80, R85, R90). -/
theorem step_next_writeResult {s t : State} (hr : s.runState = .running) (h : step s = .next t)
    (hb : s.read8 s.pc ≠ 0x00#8) :
    (s.read8 s.pc = 0xA9#8 ∧ ∃ u v, t = State.writeResult u .a v) ∨
      (s.read8 s.pc ≠ 0xA9#8 ∧ ∃ u v, t = State.writeResult u .x v) := by
  rcases step_running_cases hr with ⟨hop, -⟩ | ⟨hop, e⟩ | ⟨hop, e⟩ | ⟨hop, e⟩ | ⟨-, e⟩
  · exact absurd hop hb
  · rw [e] at h; cases h; exact .inl ⟨hop, _, _, rfl⟩
  · rw [e] at h; cases h; exact .inr ⟨by rw [hop]; decide, _, _, rfl⟩
  · rw [e] at h; cases h; exact .inr ⟨by rw [hop]; decide, _, _, rfl⟩
  · rw [e] at h; cases h

/-- Settles O18: the step ends in a write of a result, whose flags reflect the register written; RESET and POWER_ON
clear all of `P` and both registers without it. -/
theorem flagsReflectTheRegisterJustWritten : Obligations.FlagsReflectTheRegisterJustWritten := by
  refine ⟨fun s t hr h hb => ?_, fun s => ⟨State.zero_of_status_zero rfl, rfl, rfl⟩,
    fun s => ⟨State.zero_of_status_zero rfl, rfl, rfl⟩⟩
  rcases step_next_writeResult hr h hb with ⟨hop, u, v, rfl⟩ | ⟨hop, u, v, rfl⟩
  · exact .inl ⟨hop, writeResult_flags_reflect u .a v⟩
  · exact .inr ⟨hop, writeResult_flags_reflect u .x v⟩

end Sys2Proof.Machine
end

section
/-! What a read sees after a write (R31 to R36): one byte, and the two cells of a 16-bit access, which never coincide. -/

namespace Sys2Proof.Machine

namespace Memory

theorem read8_write8 {m : Memory} (hm : m.wf = true) (a b : Word) (v : Byte) :
    (m.write8 a v).read8 b = if b = a then v else m.read8 b := by
  split
  case isTrue h => rw [h, read8_write8_same hm]
  case isFalse h => exact read8_write8_other m v h

/-- The high byte's write does not reach the low byte's cell: no address is its own successor modulo 65536. -/
theorem read8_write16_low {m : Memory} (hm : m.wf = true) (a v : Word) :
    (m.write16 a v).read8 a = v.extractLsb' 0 8 := by
  have hne : a ≠ a + 1 := left_ne_add.2 (by decide)
  rw [write16, read8_write8_other _ _ hne, read8_write8_same hm]

theorem read8_write16_high {m : Memory} (hm : m.wf = true) (a v : Word) :
    (m.write16 a v).read8 (a + 1) = v.extractLsb' 8 8 :=
  read8_write8_same (wf_write8 hm _ _) _ _

theorem read16_write16_same {m : Memory} (hm : m.wf = true) (a v : Word) : (m.write16 a v).read16 a = v := by
  rw [read16, read8_write16_low hm, read8_write16_high hm]
  calc v.extractLsb' 8 8 ++ v.extractLsb' 0 8
      = v.extractLsb' 0 16 := BitVec.extractLsb'_append_extractLsb'_eq_extractLsb' rfl
    _ = v := BitVec.extractLsb'_eq_self

/-- The formula of R33. -/
theorem read16_eq_or_shiftLeft (m : Memory) (a : Word) :
    m.read16 a = (m.read8 a).setWidth 16 ||| ((m.read8 (a + 1)).setWidth 16 <<< 8) := by
  rw [read16, BitVec.append_def, BitVec.shiftLeftZeroExtend_eq, BitVec.setWidth'_eq, BitVec.or_comm]

end Memory

/-- Settles O1: the written cell is the only one a byte write changes, and memory the only field; a memory of nothing
reads as 0. -/
theorem byteReadReturnsWhatWasLastWritten : Obligations.ByteReadReturnsWhatWasLastWritten :=
  ⟨fun _ a b v hm => ⟨Memory.read8_write8 hm a b v, rfl⟩, fun _ b => Memory.read8_nil b⟩

/-- Settles O5: the two bytes a 16-bit write stores are joined again by the read. -/
theorem writeThenReadGivesTheValueWritten : Obligations.WriteThenReadGivesTheValueWritten :=
  fun _ a v b hm => ⟨Memory.read16_write16_same hm a v, Memory.read8_write8_same hm a b⟩

/-- Settles O2: two bytes side by side are the low one or'ed with the high one, widened first and then shifted. -/
theorem wordReadIsTheLittleEndianFormula : Obligations.WordReadIsTheLittleEndianFormula :=
  fun s a => Memory.read16_eq_or_shiftLeft s.mem a

/-- Settles O4: the address after 0xFFFF is 0x0000, so the rules for the low and the high cell give both sides. -/
theorem wordAccessWrapsAtTheTop : Obligations.WordAccessWrapsAtTheTop := by
  intro s v hm
  have hwrap : (0xFFFF#16 : Word) + 1 = 0x0000#16 := by decide
  refine ⟨?_, Memory.read8_write16_low hm _ v, ?_⟩
  · rw [← hwrap]; rfl
  · rw [← hwrap]; exact Memory.read8_write16_high hm _ v

end Sys2Proof.Machine
end

section
/-! Register writes and flag writes (R73, R74): what the flag rule does, and which instruction applies it. -/

namespace Sys2Proof.Machine

theorem State.readReg_writeResult_other (s : State) {q r : Reg} (v : Byte) (h : q ≠ r) :
    (s.writeResult r v).readReg q = s.readReg q := by
  rw [State.writeResult, State.setNZ_readReg, State.readReg_writeReg_other s r v h]

theorem State.readReg_setRunState (s : State) (u : RunState) (q : Reg) :
    (s.setRunState u).readReg q = s.readReg q := by cases q <;> rfl

/-- The register an instruction's result goes to (R80, R85, R90); BRK has no result (R95). -/
def resultReg : Instr → Option Reg
  | .brk => none
  | .lda _ => some .a
  | .tax | .inx => some .x

/-- Everything an instruction can do: one without a result halts, the others write their result by the one operation
that applies the flag rule to it. -/
theorem exec_next_cases {i : Instr} {s t : State} (h : exec i s = .next t) :
    (i = .brk ∧ t = s.setRunState .halted) ∨
      ∃ r v, resultReg i = some r ∧ t = s.writeResult r v := by
  cases i with
  | brk => cases h; exact .inl ⟨rfl, rfl⟩
  | lda imm8 => cases h; exact .inr ⟨.a, imm8, rfl, rfl⟩
  | tax => cases h; exact .inr ⟨.x, s.readReg .a, rfl, rfl⟩
  | inx => cases h; exact .inr ⟨.x, s.readReg .x + 1, rfl, rfl⟩

/-- A written result (R74): the flags describe the register that took it, and the other register is as before. -/
theorem writeResult_flags_and_frame (s : State) (r : Reg) (v : Byte) :
    FlagsDescribe s (s.writeResult r v) ((s.writeResult r v).readReg r) ∧
      ∀ q, q ≠ r → (s.writeResult r v).readReg q = s.readReg q := by
  rw [State.readReg_writeResult_same]
  exact ⟨flagsDescribe_writeResult s r v, fun _ => State.readReg_writeResult_other s v⟩

/-- Settles O17: an instruction either halts, which touches neither `P` nor a register, or writes one result with the
flag rule. -/
theorem registerWritesAndFlagWritesGoTogether : Obligations.RegisterWritesAndFlagWritesGoTogether := by
  intro i s t h
  rcases exec_next_cases h with ⟨rfl, rfl⟩ | ⟨r, v, hr, rfl⟩
  · exact .inl ⟨rfl, State.setRunState_status s .halted, State.readReg_setRunState s .halted⟩
  · refine .inr ⟨r, ?_, ?_, writeResult_flags_and_frame s r v⟩
    · cases i <;> cases hr <;> rfl
    · rintro rfl; cases hr

/-- Settles O12: the rule's status byte has the two flags and the reserved bits as R73 says, and `P` is the only field
it writes. -/
theorem flagRuleWritesZeroAndNegativeOnly : Obligations.FlagRuleWritesZeroAndNegativeOnly :=
  fun s v => ⟨flagsDescribe_of_status (State.setNZ_status s v), rfl, rfl⟩

end Sys2Proof.Machine
end

section
/-! RESET (R125): a halted core performs it, and the start address is the word at the reset vector. -/

namespace Sys2Proof.Machine

/-- `Halted` accepts every command (R128). -/
theorem State.issue_halted {s : State} (h : s.runState = .halted) (fuel : Nat) (c : Command) :
    s.issue fuel c = c.perform fuel s :=
  State.issue_accepted (by rw [h]; rfl)

/-- The start address byte by byte (R33, R125): the vector's low byte at 0xFFFC, its high byte at 0xFFFD. -/
theorem State.resetCommand_pc_bytes (s : State) :
    s.resetCommand.pc =
      (s.read8 0xFFFC#16).setWidth 16 ||| ((s.read8 0xFFFD#16).setWidth 16 <<< 8) := by
  have hnext : (0xFFFC#16 : Word) + 1 = 0xFFFD#16 := by decide
  rw [State.resetCommand_pc, ← hnext]
  exact Memory.read16_eq_or_shiftLeft s.mem 0xFFFC#16

theorem sameMemory_of_mem_eq {s t : State} (h : t.mem = s.mem) : SameMemory s t :=
  fun a => congrArg (Memory.read8 · a) h

/-- Settles O39: a halted core performs the command, and the state it answers is RESET's, which keeps memory and
`run_state`. -/
theorem resetClearsRegistersAndLoadsTheVector : Obligations.ResetClearsRegistersAndLoadsTheVector :=
  fun fuel s h =>
    ⟨s.resetCommand, State.issue_halted h fuel .reset, s.resetCommand_accumulator, s.resetCommand_indexX,
      s.resetCommand_status, s.resetCommand_pc_bytes, sameMemory_of_mem_eq s.resetCommand_mem,
      s.resetCommand_runState⟩

end Sys2Proof.Machine
end

section
/-! Decode and encode (R50 to R57): each is the other's inverse, and the opcode byte alone decides what follows. -/

namespace Sys2Proof

theorem decode_encode_append (i : Instr) (rest : List Byte) : decode (encode i ++ rest) = .ok (i, rest) := by
  cases i with
  | brk => exact decode_brk rest
  | lda imm8 => exact decode_lda imm8 rest
  | tax => exact decode_tax rest
  | inx => exact decode_inx rest

theorem eq_encode_append_of_decode {bytes rest : List Byte} {i : Instr} (h : decode bytes = .ok (i, rest)) :
    bytes = encode i ++ rest := by
  rcases decode_ok_cases h with ⟨rfl, rfl⟩ | ⟨v, rfl, rfl⟩ | ⟨rfl, rfl⟩ | ⟨rfl, rfl⟩ <;> rfl

/-- Settles O7: what a decode consumed is the encoding of what it read, and an encoding decodes whatever follows it. -/
theorem decodeIsTheInverseOfEncode : Obligations.DecodeIsTheInverseOfEncode := by
  intro bytes rest i _
  constructor
  · exact eq_encode_append_of_decode
  · rintro rfl
    exact decode_encode_append i rest

/-- Settles O8: the four bit patterns are the opcodes of the decoder's four equations. -/
theorem fourOpcodesDecodeAsTabled : Obligations.FourOpcodesDecodeAsTabled :=
  fun imm8 rest => ⟨decode_brk rest, decode_lda imm8 rest, decode_tax rest, decode_inx rest⟩

theorem decode_eq_unrecognizedOpcode_iff {b : Byte} {rest : List Byte} :
    decode (b :: rest) = .error (.unrecognizedOpcode b) ↔ Unrecognized b := by
  refine ⟨fun h => ?_, fun h => decode_of_unrecognized h rest⟩
  rcases opcode_cases b with rfl | rfl | rfl | rfl | hu
  · cases h
  · cases rest <;> cases h
  · cases h
  · cases h
  · exact hu

/-- The three ranges of R57 are the byte values between the four opcodes. -/
theorem unrecognized_iff_ranges {b : Byte} :
    Unrecognized b ↔ (0x01 ≤ b.toNat ∧ b.toNat ≤ 0xA8) ∨ (0xAB ≤ b.toNat ∧ b.toNat ≤ 0xE7) ∨
      (0xE9 ≤ b.toNat ∧ b.toNat ≤ 0xFF) := by
  unfold Unrecognized
  bv_omega

/-- The length table in numerals (R54). -/
theorem instrLength_eq (b : Byte) : instrLength b =
    if b = 0xA9#8 then some 2 else if b = 0xAA#8 ∨ b = 0xE8#8 ∨ b = 0x00#8 then some 1 else none := by
  rcases opcode_cases b with rfl | rfl | rfl | rfl | hu
  · rfl
  · rfl
  · rfl
  · rfl
  · obtain ⟨hbrk, hlda, htax, hinx⟩ := hu
    simp [instrLength_of_unrecognized ⟨hbrk, hlda, htax, hinx⟩, hbrk, hlda, htax, hinx]

theorem instrLength_bounds {b : Byte} {n : Nat} (h : instrLength b = some n) : 1 ≤ n ∧ n ≤ 2 := by
  rw [instrLength_eq] at h
  split at h
  · cases h; decide
  · split at h <;> cases h
    decide

/-- Settles O10: a decode that succeeds consumed its instruction's encoding, whose length the opcode byte announces. -/
theorem lengthIsAFunctionOfTheOpcode : Obligations.LengthIsAFunctionOfTheOpcode := by
  refine ⟨instrLength_eq, fun b bytes rest i h => ?_⟩
  rcases decode_ok_cases h with ⟨-, e⟩ | ⟨v, -, e⟩ | ⟨-, e⟩ | ⟨-, e⟩ <;> cases e
  · exact ⟨1, instrLength_brk, Nat.add_comm _ 1⟩
  · exact ⟨2, instrLength_lda, Nat.add_comm _ 2⟩
  · exact ⟨1, instrLength_tax, Nat.add_comm _ 1⟩
  · exact ⟨1, instrLength_inx, Nat.add_comm _ 1⟩

end Sys2Proof
end

section
/-! The four instructions and the whole step (R65 to R72, R80 to R95): what each completes with, and the fatal
condition. -/

namespace Sys2Proof.Machine

/-! What an instruction answers; `pc` is already past it (log 18). -/

theorem exec_brk (s : State) : exec .brk s = .next (s.setRunState .halted) := rfl
theorem exec_lda (imm8 : Byte) (s : State) : exec (.lda imm8) s = .next (s.writeResult .a imm8) := rfl
theorem exec_tax (s : State) : exec .tax s = .next (s.writeResult .x s.accumulator) := rfl
theorem exec_inx (s : State) : exec .inx s = .next (s.writeResult .x (s.indexX + 1)) := rfl

theorem sameMemory_writeResult (s : State) (r : Reg) (v : Byte) : SameMemory s (s.writeResult r v) :=
  sameMemory_of_mem_eq (s.writeResult_mem r v)

/-- Settles O13: LDA answers the write of its operand to the accumulator. -/
theorem ldaCompletesWithItsOperand : Obligations.LdaCompletesWithItsOperand :=
  fun imm8 s =>
    ⟨_, exec_lda imm8 s, s.readReg_writeResult_same .a imm8, flagsDescribe_writeResult s .a imm8,
      s.readReg_writeResult_other imm8 (by decide), s.writeResult_pc .a imm8, sameMemory_writeResult s .a imm8,
      s.writeResult_runState .a imm8⟩

/-- A result written to index_x, as TAX and INX answer it: the part of the two statements that does not depend on the
value. -/
theorem writeResult_x_frame (s : State) (v : Byte) :
    FlagsDescribe s (s.writeResult .x v) ((s.writeResult .x v).readReg .x) ∧
      (s.writeResult .x v).readReg .a = s.readReg .a ∧ (s.writeResult .x v).pc = s.pc ∧
      SameMemory s (s.writeResult .x v) ∧ (s.writeResult .x v).runState = s.runState :=
  ⟨flagsDescribe_writeResult s .x v, s.readReg_writeResult_other v (by decide), s.writeResult_pc .x v,
    sameMemory_writeResult s .x v, s.writeResult_runState .x v⟩

/-- Settles O14: TAX answers the write of the accumulator to index_x. -/
theorem taxCompletesWithTheAccumulator : Obligations.TaxCompletesWithTheAccumulator :=
  fun s => ⟨_, exec_tax s, s.readReg_writeResult_same .x s.accumulator, writeResult_x_frame s s.accumulator⟩

/-- Settles O15: INX answers the write of index_x plus 1, modulo 256, to index_x. -/
theorem inxCompletesWithTheIncrement : Obligations.InxCompletesWithTheIncrement :=
  fun s => ⟨_, exec_inx s, BitVec.toNat_add s.indexX 1, writeResult_x_frame s (s.indexX + 1)⟩

/-- Settles O16: BRK answers the state with `run_state` set, the only field written. -/
theorem brkCompletesByHalting : Obligations.BrkCompletesByHalting :=
  fun s =>
    ⟨_, exec_brk s, s.setRunState_runState .halted, s.setRunState_status .halted,
      s.readReg_setRunState .halted .a, s.readReg_setRunState .halted .x, s.setRunState_pc .halted,
      sameMemory_of_mem_eq (s.setRunState_mem .halted)⟩

/-! The fetch before it. -/

theorem State.advancePc_eq (s : State) : s.advancePc = { s with pc := s.pc + 1 } := rfl

theorem State.advancePc_advancePc (s : State) : s.advancePc.advancePc = { s with pc := s.pc + 2 } := by
  have h : s.pc + 1 + 1 = s.pc + 2 := BitVec.add_assoc s.pc 1 1
  simp only [State.advancePc_eq, h]

/-- Settles O24: the decoded instruction is the one whose opcode the step fetches, and its encoding is as long as the
fetch advances `pc`. -/
theorem stepRunsTheDecodedInstruction : Obligations.StepRunsTheDecodedInstruction := by
  intro s i rest hr _ h
  rcases decode_ok_cases h with ⟨rfl, e⟩ | ⟨v, rfl, e⟩ | ⟨rfl, e⟩ | ⟨rfl, e⟩ <;>
    obtain ⟨hop, hrest⟩ := List.cons.inj e
  · exact step_brk hr hop
  · obtain ⟨rfl, -⟩ := List.cons.inj hrest
    rw [step_lda hr hop, State.advancePc_advancePc]; rfl
  · exact step_tax hr hop
  · exact step_inx hr hop

/-- The fatal condition of R72, its address and its stopped state written out: `pc` past the byte was one higher. -/
theorem unrecognizedOpcode_advancePc (opcode : Byte) (s : State) :
    unrecognizedOpcode opcode s.advancePc =
      .unrecognizedOpcode opcode s.pc { s with pc := s.pc + 1, runState := .faulted .unrecognizedOpcode } := by
  rw [unrecognizedOpcode, State.advancePc_pc, BitVec.add_sub_cancel]; rfl

/-- Settles O25: the byte is none the decoder knows, so the step is the fatal condition. -/
theorem unrecognizedOpcodeStopsTheCore : Obligations.UnrecognizedOpcodeStopsTheCore := by
  intro s hr hlda htax hinx hbrk
  rw [step_unrecognized hr ⟨hbrk, hlda, htax, hinx⟩, unrecognizedOpcode_advancePc]

/-- The two ways a step faults (R72, R105). -/
theorem step_fault_cases {s : State} {f : Fault} (h : step s = .fault f) :
    (s.runState = .running ∧ Unrecognized (s.read8 s.pc) ∧
      f = .unrecognizedOpcode (s.read8 s.pc) s.pc
        { s with pc := s.pc + 1, runState := .faulted .unrecognizedOpcode }) ∨
    (∃ c, s.runState = .faulted c ∧ f = .stuckInFaulted c s) := by
  cases hr : s.runState with
  | running =>
    rcases step_running_cases hr with ⟨-, e⟩ | ⟨-, e⟩ | ⟨-, e⟩ | ⟨-, e⟩ | ⟨hu, e⟩ <;> rw [e] at h <;> cases h
    exact .inl ⟨rfl, hu, unrecognizedOpcode_advancePc _ s⟩
  | halted => rw [step_of_halted hr] at h; cases h
  | faulted c => rw [step_of_faulted hr] at h; cases h; exact .inr ⟨c, rfl, rfl⟩

theorem not_mem_opcodes_iff {b : Byte} : b ∉ [0x00#8, 0xA9#8, 0xAA#8, 0xE8#8] ↔ Unrecognized b := by
  simp [Unrecognized]

/-- Settles O26: no step is refused, and a fault is one of the two. -/
theorem stepsStopOnlyOnFatalConditions : Obligations.StepsStopOnlyOnFatalConditions := by
  refine fun s => ⟨step_not_refused s, fun f h => ?_⟩
  rcases step_fault_cases h with ⟨hr, hu, rfl⟩ | ⟨c, hr, rfl⟩
  · exact .inl ⟨hr, not_mem_opcodes_iff.2 hu, rfl⟩
  · exact .inr ⟨c, hr, rfl⟩

/-- Settles O9: the ranges are the bytes the decoder rejects, and those are the ones a running core faults on. -/
theorem exactlyTheOtherOpcodesAreUnrecognized : Obligations.ExactlyTheOtherOpcodesAreUnrecognized := by
  refine ⟨fun b rest => decode_eq_unrecognizedOpcode_iff.trans unrecognized_iff_ranges, fun s hr => ?_⟩
  rw [decode_eq_unrecognizedOpcode_iff]
  constructor
  · rintro ⟨f, h⟩
    rcases step_fault_cases h with ⟨-, hu, -⟩ | ⟨c, hc, -⟩
    · exact hu
    · rw [hr] at hc; cases hc
  · exact fun hu => ⟨_, step_unrecognized hr hu⟩

/-! The whole step of each instruction. -/

/-- Settles O19: the step writes the byte after the opcode to the accumulator, two bytes further on. -/
theorem ldaStepLoadsTheNextByte : Obligations.LdaStepLoadsTheNextByte := by
  intro s hr hop
  have h := step_lda hr hop
  rw [State.advancePc_advancePc, exec_lda] at h
  obtain ⟨hflags, hother⟩ := writeResult_flags_and_frame { s with pc := s.pc + 2 } .a (s.read8 (s.pc + 1))
  exact ⟨_, h, rfl, hflags, rfl, hother .x (by decide), sameMemory_writeResult _ _ _, hr⟩

/-- The frame of a step that writes index_x after a fetch of one byte, TAX's and INX's. -/
theorem advancePc_writeResult_x_frame {s : State} (hr : s.runState = .running) (v : Byte) :
    (s.advancePc.writeResult .x v).pc = s.pc + 1 ∧ (s.advancePc.writeResult .x v).readReg .a = s.readReg .a ∧
      SameMemory s (s.advancePc.writeResult .x v) ∧ (s.advancePc.writeResult .x v).runState = .running :=
  ⟨rfl, rfl, sameMemory_writeResult _ _ _, hr⟩

/-- Settles O20: the step writes the accumulator to index_x. -/
theorem taxStepCopiesTheAccumulator : Obligations.TaxStepCopiesTheAccumulator :=
  fun s hr hop => ⟨_, step_tax hr hop, rfl, flagsDescribe_writeResult s.advancePc .x s.accumulator,
    advancePc_writeResult_x_frame hr s.accumulator⟩

theorem add_one_eq_zero_iff {b : Byte} : b + 1 = 0x00#8 ↔ b = 0xFF#8 := by bv_omega

theorem getLsbD_seven_add_one {b : Byte} : (b + 1).getLsbD 7 = true ↔ 0x7F ≤ b.toNat ∧ b.toNat ≤ 0xFE := by
  have hmsb : (b + 1).getLsbD 7 = decide (0x80 ≤ (b + 1).toNat) := BitVec.msb_eq_decide (w := 8) (b + 1)
  have hlt : b.toNat < 256 := b.isLt
  rw [hmsb, decide_eq_true_iff]
  bv_omega

/-- Settles O21: the step writes index_x plus 1; the sum's sign and whether it is 0 are told from the old value. -/
theorem inxStepIncrementsIndexX : Obligations.InxStepIncrementsIndexX := by
  intro s hr hop
  have hflags := flagsDescribe_writeResult s.advancePc .x (s.indexX + 1)
  have ⟨hz, hn, _⟩ := hflags
  refine ⟨_, step_inx hr hop, BitVec.toNat_add s.indexX 1, hflags, ?_, ?_, advancePc_writeResult_x_frame hr _⟩
  · exact (hz ▸ decide_eq_true_iff).trans add_one_eq_zero_iff
  · exact hn ▸ getLsbD_seven_add_one

/-- Settles O22: the step only advances `pc` and halts. -/
theorem brkStepHalts : Obligations.BrkStepHalts :=
  fun _ hr hop => ⟨_, step_brk hr hop, rfl, rfl, rfl, rfl, rfl, sameMemory_of_mem_eq rfl⟩

/-- Settles O23: the address after 0xFFFF is 0x0000, where LDA's step finds its operand. -/
theorem instructionMayStraddleTheTop : Obligations.InstructionMayStraddleTheTop := by
  intro s hr hpc hop
  obtain ⟨t, hstep, ha, -, htpc, -⟩ := ldaStepLoadsTheNextByte s hr (hpc ▸ hop)
  rw [hpc] at ha htpc
  exact ⟨t, hstep, ha, htpc⟩

/-- The four ways a step of a running core goes on. -/
theorem step_running_next_cases {s t : State} (hr : s.runState = .running) (h : step s = .next t) :
    (s.read8 s.pc = 0x00#8 ∧ t = s.advancePc.setRunState .halted) ∨
    (s.read8 s.pc = 0xA9#8 ∧ t = s.advancePc.advancePc.writeResult .a (s.read8 (s.pc + 1))) ∨
    (s.read8 s.pc = 0xAA#8 ∧ t = s.advancePc.writeResult .x s.accumulator) ∨
    (s.read8 s.pc = 0xE8#8 ∧ t = s.advancePc.writeResult .x (s.indexX + 1)) := by
  rcases step_running_cases hr with ⟨hop, e⟩ | ⟨hop, e⟩ | ⟨hop, e⟩ | ⟨hop, e⟩ | ⟨-, e⟩ <;> rw [e] at h <;> cases h
  · exact .inl ⟨hop, rfl⟩
  · exact .inr (.inl ⟨hop, rfl⟩)
  · exact .inr (.inr (.inl ⟨hop, rfl⟩))
  · exact .inr (.inr (.inr ⟨hop, rfl⟩))

/-- A step that goes on is one of a running core, or the idle step of a halted one (log 1). -/
theorem step_next_cases {s t : State} (h : step s = .next t) :
    s.runState = .running ∨ (s.runState = .halted ∧ t = s) := by
  cases hr : s.runState with
  | running => exact .inl rfl
  | halted => rw [step_of_halted hr] at h; cases h; exact .inr ⟨rfl, rfl⟩
  | faulted c => rw [step_of_faulted hr] at h; cases h

/-- Settles O28: each of the four instructions advances `pc` by its length. -/
theorem pcAdvancesByTheInstructionLength : Obligations.PcAdvancesByTheInstructionLength := by
  intro s t hr h
  rcases step_running_next_cases hr h with ⟨hop, rfl⟩ | ⟨hop, rfl⟩ | ⟨hop, rfl⟩ | ⟨hop, rfl⟩ <;> rw [hop]
  · exact ⟨1, instrLength_brk, BitVec.toNat_add s.pc 1⟩
  · rw [State.advancePc_advancePc]
    exact ⟨2, instrLength_lda, BitVec.toNat_add s.pc 2⟩
  · exact ⟨1, instrLength_tax, BitVec.toNat_add s.pc 1⟩
  · exact ⟨1, instrLength_inx, BitVec.toNat_add s.pc 1⟩

/-- Settles O29: the opcode and the operand come from memory, so the same case of the step applies whatever `P` holds,
and no case reads `P` for another field. -/
theorem statusNeverInfluencesAStep : Obligations.StatusNeverInfluencesAStep := by
  refine fun s p => ⟨fun t h => ?_, fun f h => ?_⟩
  · rcases step_next_cases h with hr | ⟨hr, rfl⟩
    · rcases step_running_next_cases hr h with ⟨hop, rfl⟩ | ⟨hop, rfl⟩ | ⟨hop, rfl⟩ | ⟨hop, rfl⟩
      · exact ⟨_, step_brk hr hop, rfl⟩
      · exact ⟨_, step_lda hr hop, rfl⟩
      · exact ⟨_, step_tax hr hop, rfl⟩
      · exact ⟨_, step_inx hr hop, rfl⟩
    · exact ⟨_, step_of_halted hr, rfl⟩
  · rcases step_fault_cases h with ⟨hr, hu, rfl⟩ | ⟨c, hr, rfl⟩
    · exact ⟨_, step_unrecognized hr hu, rfl⟩
    · exact ⟨_, step_of_faulted hr, rfl⟩

end Sys2Proof.Machine
end

section
/-! What every step and every host command keeps, said once for any property of states, and the invariants of the core:
memory and `P` (R21, R39), and the reset vector (R126). -/

namespace Sys2Proof.Machine

/-! ## What a command can do -/

/-- What a step of a running core keeps is kept by the loop, whatever it answers and whatever state it was entered
from. -/
theorem State.loop_keeps {P : State → Prop} (hstep : ∀ u, u.runState = .running → P u → P (settled u (step u)))
    {fuel : Nat} {s : State} {o : Host.Outcome State Fault Refusal} (h : State.loop fuel s = some o) (hs : P s)
    (s₀ : State) : P (settled s₀ o) := by
  have hnext : ∀ u t, u.runState = .running → step u = .next t → P u → P t := fun u t hr e hu => by
    have := hstep u hr hu; rwa [e] at this
  have hfault : ∀ u f, u.runState = .running → step u = .fault f → P u → P f.stopped := fun u f hr e hu => by
    have := hstep u hr hu; rwa [e] at this
  rcases State.loop_induction hnext hfault h hs with ⟨t, rfl, ht, -⟩ | ⟨f, rfl, hf⟩
  · exact ht
  · exact hf

theorem State.loop_not_refused (fuel : Nat) (s : State) (r : Refusal) : State.loop fuel s ≠ some (.refused r) := by
  intro h
  rcases State.loop_induction (P := fun _ => True) (fun _ _ _ _ _ => trivial) (fun _ _ _ _ _ => trivial) h trivial
    with ⟨t, e, -⟩ | ⟨f, e, -⟩ <;> cases e

/-- What the transitions of the core keep of a state: its steps, the writes of `run_state` by RUN and by a fatal
condition, and the commands that run no step. -/
structure Kept (P : State → Prop) : Prop where
  reset : P State.reset
  step : ∀ s, P s → P (settled s (step s))
  setRunState : ∀ s r, P s → P (s.setRunState r)
  resetCommand : ∀ s, P s → P s.resetCommand
  loadProgram : ∀ s program, P s → P (s.loadProgram program)

namespace Kept
variable {P : State → Prop} (hP : Kept P)
include hP

theorem load {s : State} (hs : P s) (program : List Byte) : P (settled s (s.load program)) := by
  rcases s.load_cases program with ⟨-, e⟩ | ⟨-, e⟩ <;> rw [e]
  · exact hP.loadProgram s program hs
  · exact hP.setRunState s _ hs

theorem run {fuel : Nat} {s : State} {o : Host.Outcome State Fault Refusal} (h : State.run fuel s = some o)
    (hs : P s) (s₀ : State) : P (settled s₀ o) :=
  State.loop_keeps (fun u _ => hP.step u) h (hP.setRunState s .running hs) s₀

theorem loadAndRun {fuel : Nat} {program : List Byte} {s : State} {o : Host.Outcome State Fault Refusal}
    (h : State.loadAndRun fuel program s = some o) (hs : P s) : P (settled s o) := by
  have hload := hP.load hs program
  unfold State.loadAndRun at h
  rcases s.load_cases program with ⟨-, e⟩ | ⟨-, e⟩ <;> rw [e] at h hload
  · exact hP.run h (hP.resetCommand _ hload) s
  · cases h; exact hload

/-- Every host command keeps it, performed or refused, whole runs included. -/
theorem issue {fuel : Nat} {s : State} {c : Command} {o : Host.Outcome State Fault Refusal}
    (h : s.issue fuel c = some o) (hs : P s) : P (settled s o) := by
  cases ha : s.runState.accepts c with
  | false => rw [State.issue_not_accepted ha] at h; cases h; exact hs
  | true =>
    rw [State.issue_accepted ha] at h
    cases c with
    | powerOn => cases h; exact hP.reset
    | load program => cases h; exact hP.load hs program
    | reset => cases h; exact hP.resetCommand s hs
    | run => exact hP.run h hs s
    | loadAndRun program => exact hP.loadAndRun h hs
    | inspect => cases h; exact hs

/-- Every reachable state has it. -/
theorem reachable {s : State} (h : Reachable s) : P s := by
  induction h with
  | reset => exact hP.reset
  | enterLoop _ _ ih => exact hP.setRunState _ _ ih
  | step _ e ih => subst e; exact hP.step _ ih
  | command fuel c _ h ih => exact hP.issue h ih

end Kept

/-! ## Memory: no step writes it -/

/-- Whatever a step answers, it leaves memory (R39). -/
theorem settled_step_mem (s : State) : (settled s (step s)).mem = s.mem := by
  cases h : step s with
  | next t => exact step_next_mem h
  | fault f => exact step_fault_mem h
  | refused r => rfl

theorem exec_next_mem {i : Instr} {s t : State} (h : exec i s = .next t) : t.mem = s.mem := by
  rcases exec_next_cases h with ⟨-, rfl⟩ | ⟨r, v, -, rfl⟩
  · exact s.setRunState_mem .halted
  · exact s.writeResult_mem r v

/-- Settles O30: neither an instruction nor a step writes memory, and so no loop does. -/
theorem noRunWritesMemory : Obligations.NoRunWritesMemory := by
  refine ⟨fun i s t h => exec_next_mem h, settled_step_mem, fun fuel s o h => ?_⟩
  cases ha : s.runState.accepts .run with
  | false => rw [State.issue_not_accepted ha] at h; cases h; rfl
  | true =>
    rw [State.issue_accepted ha] at h
    exact State.loop_keeps (P := fun u => u.mem = s.mem) (fun u _ hu => (settled_step_mem u).trans hu) h rfl s

/-! ## The invariant: canonical memory and the three values of `P` -/

/-- The three values of R21. -/
def LegalStatus (p : Byte) : Prop := p = 0x00#8 ∨ p = 0x02#8 ∨ p = 0x80#8

theorem State.inv_iff_legalStatus {s : State} : s.Inv = true ↔ s.mem.wf = true ∧ LegalStatus s.status :=
  State.inv_iff

theorem LegalStatus.reserved_zero {p : Byte} (h : LegalStatus p) : p &&& 0x7D#8 = 0x00#8 := by
  rcases h with rfl | rfl | rfl <;> rfl

theorem LegalStatus.flagsOf {p : Byte} (h : LegalStatus p) (v : Byte) : LegalStatus (flagsOf p v) := by
  rw [flagsOf_legal h.reserved_zero]
  split
  · exact .inr (.inl rfl)
  · split
    · exact .inr (.inr rfl)
    · exact .inl rfl

/-- A step leaves `P`, or writes it by the flag rule (R20, R73). -/
theorem settled_step_status (s : State) :
    (settled s (step s)).status = s.status ∨ ∃ v, (settled s (step s)).status = flagsOf s.status v := by
  cases h : step s with
  | next t =>
    rcases step_next_cases h with hr | ⟨-, rfl⟩
    · rcases step_running_next_cases hr h with ⟨-, rfl⟩ | ⟨-, rfl⟩ | ⟨-, rfl⟩ | ⟨-, rfl⟩
      · exact .inl rfl
      all_goals exact .inr ⟨_, State.writeResult_status _ _ _⟩
    · exact .inl rfl
  | fault f => rcases step_fault_cases h with ⟨-, -, rfl⟩ | ⟨c, -, rfl⟩ <;> exact .inl rfl
  | refused r => exact .inl rfl

theorem kept_inv : Kept (fun s => s.Inv = true) where
  reset := rfl
  step s hs := by
    obtain ⟨hm, hp⟩ := State.inv_iff_legalStatus.1 hs
    refine State.inv_iff_legalStatus.2 ⟨(settled_step_mem s).symm ▸ hm, ?_⟩
    rcases settled_step_status s with e | ⟨v, e⟩ <;> rw [e]
    · exact hp
    · exact hp.flagsOf v
  setRunState _ _ hs := hs
  resetCommand s hs := by
    obtain ⟨hm, -⟩ := State.inv_iff.1 hs
    exact State.inv_iff.2 ⟨hm, .inl s.resetCommand_status⟩
  loadProgram s program hs := by
    obtain ⟨hm, hp⟩ := State.inv_iff.1 hs
    exact State.inv_iff.2 ⟨State.loadProgram_wf hm program, hp⟩

/-- Settles O33: what a step leaves, next or fault, has the same memory and a status the flag rule gives, if not the
same. -/
theorem everyStepKeepsTheInvariant : Obligations.EveryStepKeepsTheInvariant := by
  intro s hs
  have hkept := kept_inv.step s hs
  exact ⟨fun t e => by rwa [e] at hkept, fun f e => by rwa [e] at hkept⟩

/-- Settles O34: the invariant is kept by the parts of every command. -/
theorem everyCommandKeepsTheInvariant : Obligations.EveryCommandKeepsTheInvariant :=
  fun _ _ _ _ hs h => kept_inv.issue h hs

/-- Settles O32: memory of nothing is canonical, and `P` is 0. -/
theorem resetMeetsTheInvariant : Obligations.ResetMeetsTheInvariant :=
  State.inv_iff.2 ⟨Memory.wf_nil, .inl rfl⟩

/-- Settles O35: a reachable state meets the invariant, and its three values of `P` have no reserved bit. -/
theorem reachableStatusHasThreeValues : Obligations.ReachableStatusHasThreeValues := by
  refine ⟨fun s v i hi => ?_, fun s => ⟨rfl, rfl⟩, fun s hs => ?_⟩
  · have hz : i ≠ 1 := by rintro rfl; revert hi; decide
    have hn : i ≠ 7 := by rintro rfl; revert hi; decide
    rw [State.setNZ_status, getLsbD_flagsOf, if_neg hz, if_neg hn]
  · obtain ⟨-, hp⟩ := State.inv_iff_legalStatus.1 (kept_inv.reachable hs)
    exact ⟨hp.reserved_zero, hp⟩

/-! ## The reset vector -/

theorem State.vectorKnown_iff {s : State} :
    s.vectorKnown = true ↔ s.read16 0xFFFC#16 = 0x0000#16 ∨ s.read16 0xFFFC#16 = 0x8000#16 := by
  simp [State.vectorKnown]

/-- The vector is a matter of memory alone. -/
theorem State.vectorKnown_congr {s t : State} (h : t.mem = s.mem) : t.vectorKnown = s.vectorKnown := by
  unfold State.vectorKnown State.read16
  rw [h]

/-- LOAD ends in the write of the origin into the vector (R122, the spec's decision D6). -/
theorem State.loadProgram_read16_vector {s : State} (hm : s.mem.wf = true) (program : List Byte) :
    (s.loadProgram program).read16 0xFFFC#16 = 0x8000#16 :=
  Memory.read16_write16_same (Memory.wf_copy hm _ _) _ _

theorem kept_vectorKnown : Kept (fun s => s.mem.wf = true ∧ s.vectorKnown = true) where
  reset := ⟨rfl, rfl⟩
  step s hs := by rwa [State.vectorKnown_congr (settled_step_mem s), settled_step_mem]
  setRunState _ _ hs := hs
  resetCommand _ hs := hs
  loadProgram s program := fun ⟨hm, _⟩ =>
    ⟨State.loadProgram_wf hm program, State.vectorKnown_iff.2 (.inr (State.loadProgram_read16_vector hm program))⟩

/-- Settles O54: only LOAD and POWER_ON write memory, and each leaves a known vector. -/
theorem everyStepAndCommandKeepsTheResetVector : Obligations.EveryStepAndCommandKeepsTheResetVector :=
  fun s hm hv => ⟨kept_vectorKnown.step s ⟨hm, hv⟩, fun _ _ _ h => kept_vectorKnown.issue h ⟨hm, hv⟩⟩

/-- Settles O53: memory of nothing is canonical, and the vector reads as 0. -/
theorem resetVectorIsKnownAfterReset : Obligations.ResetVectorIsKnownAfterReset := kept_vectorKnown.reset

/-- Settles O40: RESET takes `pc` from the vector, which it does not write and which is known in a reachable state. -/
theorem resetIsIdempotentAndFindsTheOrigin : Obligations.ResetIsIdempotentAndFindsTheOrigin :=
  ⟨fun s => ⟨s.resetCommand_mem, rfl⟩, rfl, fun _ program hm _ => State.loadProgram_read16_vector hm program,
    fun _ hs => State.vectorKnown_iff.1 (kept_vectorKnown.reachable hs).2⟩

end Sys2Proof.Machine
end

section
/-! Memory as a whole: a 16-bit write and a LOAD cell by cell (R34, R124), that the canonical form is determined by what
it reads as (log 15), and the step of a presented table word (logs 12, 16). -/

namespace Sys2Proof.Machine

namespace Memory

theorem read8_write16 {m : Memory} (hm : m.wf = true) (a b v : Word) :
    (m.write16 a v).read8 b =
      if b = a then v.extractLsb' 0 8 else if b = a + 1 then v.extractLsb' 8 8 else m.read8 b := by
  split
  case isTrue hlow => rw [hlow, read8_write16_low hm]
  case isFalse hlow =>
    split
    case isTrue hhigh => rw [hhigh, read8_write16_high hm]
    case isFalse hhigh => rw [write16, read8_write8_other _ _ hhigh, read8_write8_other _ _ hlow]

/-- Below its first key a canonical list lists nothing. -/
theorem lookup_below_head {low k key : Nat} {b : Byte} {rest : Memory} (hm : wfFrom low ((k, b) :: rest) = true)
    (h : key < k) : lookup ((k, b) :: rest) key = unlisted := by
  obtain ⟨-, hk, hb, hrest⟩ := wfFrom_cons.1 hm
  exact lookup_below (wfFrom_cons.2 ⟨le_rfl, hk, hb, hrest⟩) h

theorem lookup_head (k : Nat) (b : Byte) (rest : Memory) : lookup ((k, b) :: rest) k = b := if_pos rfl

/-- The key that one canonical list begins with is not below the other's first key: there the other lists nothing. -/
theorem head_le_of_lookup_eq {low low' k k' : Nat} {b b' : Byte} {rest rest' : Memory}
    (hm : wfFrom low ((k, b) :: rest) = true) (hm' : wfFrom low' ((k', b') :: rest') = true)
    (h : lookup ((k, b) :: rest) k = lookup ((k', b') :: rest') k) : k' ≤ k := by
  obtain ⟨-, -, hb, -⟩ := wfFrom_cons.1 hm
  by_contra hlt
  rw [lookup_head, lookup_below_head hm' (by omega)] at h
  exact hb h

theorem not_lookup_nil_eq {low k : Nat} {b : Byte} {rest : Memory} (hm : wfFrom low ((k, b) :: rest) = true) :
    lookup [] k ≠ lookup ((k, b) :: rest) k := by
  obtain ⟨-, -, hb, -⟩ := wfFrom_cons.1 hm
  rw [lookup_head]
  exact hb.symm

/-- Two canonical lists with the same bytes at every key of the address space begin with the same entry, and so on. -/
theorem eq_of_lookup_eq {low low' : Nat} {m m' : Memory} (hm : wfFrom low m = true) (hm' : wfFrom low' m' = true)
    (h : ∀ key, key < Config.memSize → lookup m key = lookup m' key) : m = m' := by
  induction m generalizing low low' m' with
  | nil =>
    cases m' with
    | nil => rfl
    | cons p' rest' => exact absurd (h _ (wfFrom_cons.1 hm').2.1) (not_lookup_nil_eq hm')
  | cons p rest ih =>
    obtain ⟨k, b⟩ := p
    obtain ⟨-, hk, -, hrest⟩ := wfFrom_cons.1 hm
    cases m' with
    | nil => exact absurd (h k hk).symm (not_lookup_nil_eq hm)
    | cons p' rest' =>
      obtain ⟨k', b'⟩ := p'
      obtain ⟨-, hk', -, hrest'⟩ := wfFrom_cons.1 hm'
      obtain rfl : k = k' :=
        le_antisymm (head_le_of_lookup_eq hm' hm (h k' hk').symm) (head_le_of_lookup_eq hm hm' (h k hk))
      obtain rfl : b = b' := by simpa only [lookup_head] using h k hk
      refine congrArg _ (ih hrest hrest' fun key hkey => ?_)
      rcases Nat.lt_or_ge k key with hlt | hge
      · simpa only [lookup, if_neg hlt.ne] using h key hkey
      · rw [lookup_below hrest (by omega), lookup_below hrest' (by omega)]

/-- A copy that does not run over the top of memory, cell by cell (R121). -/
theorem read8_copy {m : Memory} (hm : m.wf = true) (start a : Word) (bytes : List Byte)
    (hlen : start.toNat + bytes.length ≤ 65536) :
    (m.copy start bytes).read8 a =
      if start.toNat ≤ a.toNat ∧ a.toNat < start.toNat + bytes.length then
        bytes.getD (a.toNat - start.toNat) 0x00#8
      else m.read8 a := by
  split
  case isTrue h =>
    have ha : a = start + BitVec.ofNat 16 (a.toNat - start.toNat) := by bv_omega
    have hi : a.toNat - start.toNat < bytes.length := by omega
    calc (m.copy start bytes).read8 a
        = (m.copy start bytes).read8 (start + BitVec.ofNat 16 (a.toNat - start.toNat)) := by rw [← ha]
      _ = bytes[a.toNat - start.toNat] :=
          read8_copy_same hm start bytes (by simp only [Config.memSize]; omega) _ hi
      _ = bytes.getD (a.toNat - start.toNat) 0x00#8 := (List.getD_eq_getElem _ _ hi).symm
  case isFalse h =>
    refine read8_copy_other m start a bytes fun i hi e => h ?_
    bv_omega

end Memory

/-- Settles O3: the two cells are distinct and the writes reach no other. -/
theorem wordWriteSetsItsTwoCells : Obligations.WordWriteSetsItsTwoCells :=
  fun _ a b v hm => ⟨Memory.read8_write16 hm a b v, rfl⟩

/-- Settles O6: every key of the address space is an address. -/
theorem canonicalMemoriesThatReadAlikeAreEqual : Obligations.CanonicalMemoriesThatReadAlikeAreEqual := by
  intro m m' hm hm' h
  refine Memory.eq_of_lookup_eq hm hm' fun key hkey => ?_
  have hread := h (BitVec.ofNat 16 key)
  have hmod : key % 2 ^ 16 = key := Nat.mod_eq_of_lt hkey
  rwa [Memory.read8, Memory.read8, BitVec.toNat_ofNat, hmod] at hread

/-! ## LOAD and POWER_ON -/

/-- The memory of a legal LOAD (R124): the vector's two cells, then the program's, then what was there. -/
theorem State.loadProgram_read8 {s : State} (hm : s.mem.wf = true) {program : List Byte}
    (hlen : program.length ≤ 0x8000) (a : Word) :
    (s.loadProgram program).read8 a =
      if a = 0xFFFC#16 then 0x00#8
      else if a = 0xFFFD#16 then 0x80#8
      else if 0x8000 ≤ a.toNat ∧ a.toNat < 0x8000 + program.length then
        program.getD (a.toNat - 0x8000) 0x00#8
      else s.read8 a := by
  have hcopy := Memory.read8_copy hm Config.loadOrigin a program (Nat.add_le_add_left hlen 0x8000)
  exact (Memory.read8_write16 (Memory.wf_copy hm _ _) 0xFFFC#16 a 0x8000#16).trans (by rw [hcopy]; rfl)

/-- A legal LOAD, where it is accepted. -/
theorem State.issue_load_of_le {s : State} (h : s.runState = .halted) (fuel : Nat) {program : List Byte}
    (hlen : program.length ≤ 0x8000) : s.issue fuel (.load program) = some (.next (s.loadProgram program)) := by
  rw [State.issue_halted h]
  rcases s.load_cases program with ⟨-, e⟩ | ⟨hgt, -⟩
  · exact congrArg some e
  · omega

/-- Settles O37: a halted core performs the LOAD, which writes memory only. -/
theorem loadWritesTheProgramAndTheVector : Obligations.LoadWritesTheProgramAndTheVector :=
  fun fuel _ _ h hm hlen => ⟨_, State.issue_load_of_le h fuel hlen, rfl, State.loadProgram_read8 hm hlen⟩

/-- Settles O38: a halted core takes up the LOAD, and the program does not fit. -/
theorem oversizedLoadIsFatalAndWritesNothing : Obligations.OversizedLoadIsFatalAndWritesNothing := by
  intro fuel s program h hgt
  rw [State.issue_halted h]
  rcases s.load_cases program with ⟨hlen, -⟩ | ⟨-, e⟩
  · omega
  · exact congrArg some e

/-- POWER_ON gives the state after reset wherever the host can act (R120, log 19). -/
theorem State.issue_powerOn {s : State} (h : s.runState ≠ .running) (fuel : Nat) :
    s.issue fuel .powerOn = some (.next State.reset) := by
  refine State.issue_accepted ?_
  cases hr : s.runState with
  | running => exact absurd hr h
  | halted => rfl
  | faulted c => rfl

/-- Settles O36: every field of the state after reset is 0, `run_state` apart. -/
theorem powerOnZeroesEverything : Obligations.PowerOnZeroesEverything :=
  fun fuel _ h => ⟨State.reset, State.issue_powerOn h fuel, rfl, rfl, rfl, rfl, Memory.read8_nil, rfl, rfl⟩

/-! ## Presented table words -/

theorem decode_of_decodeTableWord {nbits w : Nat} {i : Instr} (h : decodeTableWord nbits w = some i) :
    ∃ rest, decode (tableBytes nbits w) = .ok (i, rest) := by
  unfold decodeTableWord at h
  cases e : decode (tableBytes nbits w) with
  | ok p => obtain ⟨j, rest⟩ := p; rw [e] at h; cases h; exact ⟨rest, rfl⟩
  | error _ => rw [e] at h; cases h

/-- Two presented bytes stand at `pc` and at the address after it, 0x0000 after 0xFFFF (log 12). -/
theorem State.presentBytes_pair {s : State} (hm : s.mem.wf = true) (b b' : Byte) :
    [(s.presentBytes [b, b']).read8 s.pc, (s.presentBytes [b, b']).read8 (s.pc + 1)] = [b, b'] := by
  have hlen : [b, b'].length ≤ Config.memSize := Nat.le_of_ble_eq_true rfl
  have hlow := Memory.read8_copy_same hm s.pc [b, b'] hlen 0 (Nat.zero_lt_two)
  have hhigh := Memory.read8_copy_same hm s.pc [b, b'] hlen 1 (Nat.one_lt_two)
  rw [BitVec.add_zero] at hlow
  exact congrArg₂ (fun x y => [x, y]) hlow hhigh

/-- Settles O11: the presented bytes are the table word's, and the step of a running core runs what they decode to. -/
theorem presentedTableWordRunsAsDecoded : Obligations.PresentedTableWordRunsAsDecoded := by
  intro s nbits w i hm h
  obtain ⟨rest, hdec⟩ := decode_of_decodeTableWord h
  refine stepRunsTheDecodedInstruction (s.withFetchWord nbits w) i rest rfl (by cases i <;> rfl) ?_
  exact (congrArg decode (State.presentBytes_pair hm _ _)).trans hdec

end Sys2Proof.Machine
end

section
/-! The host commands and `run_state` (R65, R105, R127 to R129): which are accepted, what a session of them leaves, and
the table of transitions. -/

namespace Sys2Proof.Machine

/-! ## Acceptance and refusal -/

theorem RunState.accepts_eq_false_iff {r : RunState} {c : Command} :
    r.accepts c = false ↔ r = .running ∨ ((∃ cause, r = .faulted cause) ∧ c ≠ .powerOn) := by
  cases r with
  | running => simp [RunState.accepts]
  | halted => simp [RunState.accepts]
  | faulted cause => cases c <;> simp [RunState.accepts]

/-- Outside `Halted` every command but POWER_ON is refused (R128). -/
theorem RunState.accepts_of_ne_halted {r : RunState} {c : Command} (h : r ≠ .halted) (hc : c ≠ .powerOn) :
    r.accepts c = false := by
  rw [RunState.accepts_eq_false_iff]
  cases r with
  | running => exact .inl rfl
  | halted => exact absurd rfl h
  | faulted cause => exact .inr ⟨⟨cause, rfl⟩, hc⟩

theorem State.load_not_refused (s : State) (program : List Byte) (r : Refusal) : s.load program ≠ .refused r := by
  rcases s.load_cases program with ⟨-, e⟩ | ⟨-, e⟩ <;> simp [e]

theorem State.loadAndRun_not_refused (fuel : Nat) (program : List Byte) (s : State) (r : Refusal) :
    State.loadAndRun fuel program s ≠ some (.refused r) := by
  unfold State.loadAndRun
  rcases s.load_cases program with ⟨-, e⟩ | ⟨-, e⟩ <;> rw [e]
  · exact State.loop_not_refused fuel _ r
  · exact fun h => by cases h

/-- A command that is performed does not answer a refusal. -/
theorem Command.perform_not_refused (fuel : Nat) (s : State) (c : Command) (r : Refusal) :
    c.perform fuel s ≠ some (.refused r) := by
  cases c with
  | load program => exact fun h => s.load_not_refused program r (Option.some.inj h)
  | run => exact State.loop_not_refused fuel s.enterLoop r
  | loadAndRun program => exact State.loadAndRun_not_refused fuel program s r
  | powerOn | reset | inspect => exact fun h => by cases h

theorem State.issue_refused_iff {fuel : Nat} {s : State} {c : Command} :
    (∃ r, s.issue fuel c = some (.refused r)) ↔ s.runState.accepts c = false := by
  constructor
  · rintro ⟨r, h⟩
    cases ha : s.runState.accepts c with
    | false => rfl
    | true => exact absurd (State.issue_accepted ha ▸ h) (Command.perform_not_refused fuel s c r)
  · exact fun ha => ⟨_, State.issue_not_accepted ha⟩

/-! ## Sessions -/

@[simp] theorem settled_next (s t : State) : settled s (.next t) = t := rfl
@[simp] theorem settled_fault (s : State) (f : Fault) : settled s (.fault f) = f.stopped := rfl

theorem State.session_cons_of_issue {fuel : Nat} {s : State} {c : Command} {o : Host.Outcome State Fault Refusal}
    (h : s.issue fuel c = some o) (rest : List Command) :
    s.session fuel (c :: rest) = (settled s o).session fuel rest := by
  simp only [State.session, h]

theorem State.session_cons_of_issue_none {fuel : Nat} {s : State} {c : Command} (h : s.issue fuel c = none)
    (rest : List Command) : s.session fuel (c :: rest) = none := by
  simp only [State.session, h]

/-- Outside `Halted` a session without POWER_ON leaves the state as it is (R128). -/
theorem State.session_of_ne_halted {s : State} (h : s.runState ≠ .halted) (fuel : Nat) {cs : List Command}
    (hcs : .powerOn ∉ cs) : s.session fuel cs = some s := by
  induction cs with
  | nil => rfl
  | cons c rest ih =>
    obtain ⟨hc, hrest⟩ := not_or.1 (mt List.mem_cons.2 hcs)
    exact (State.session_cons_of_issue
      (State.issue_not_accepted (RunState.accepts_of_ne_halted h (Ne.symm hc))) rest).trans (ih hrest)

/-- Settles O42: a performed command is not refused, and a refused one settles where it was issued. -/
theorem commandsAreAcceptedAsTheTableSays : Obligations.CommandsAreAcceptedAsTheTableSays :=
  fun _ _ _ =>
    ⟨State.issue_refused_iff.trans RunState.accepts_eq_false_iff, fun _ h => State.session_cons_of_issue h []⟩

/-- Settles O44: neither a step nor a command other than POWER_ON is performed in `Faulted`. -/
theorem faultedIsTerminal : Obligations.FaultedIsTerminal := by
  intro s cause h
  have hrunning : s.runState ≠ .running := by rw [h]; exact nofun
  have hhalted : s.runState ≠ .halted := by rw [h]; exact nofun
  refine ⟨step_of_faulted h, fun fuel c hc => ?_, fun fuel => ?_⟩
  · exact State.session_of_ne_halted hhalted fuel (by simpa using hc.symm)
  · exact State.session_cons_of_issue (State.issue_powerOn hrunning fuel) []

/-- Settles O43: `Halted` is the one state that accepts INSPECT. -/
theorem inspectReturnsTheRegistersAndChangesNothing : Obligations.InspectReturnsTheRegistersAndChangesNothing := by
  refine fun fuel s => ⟨fun h => ⟨?_, State.issue_halted h fuel .inspect, fun a => if_pos h⟩, fun h => ?_⟩
  · rw [State.inspect, h]; rfl
  · rw [State.inspect, RunState.accepts_of_ne_halted (c := .inspect) h nofun]; rfl

/-- LOAD_AND_RUN of a program that fits is a RUN after the other two commands (R127). -/
theorem State.loadAndRun_of_load_next {fuel : Nat} {program : List Byte} {s t : State}
    (h : s.load program = .next t) : State.loadAndRun fuel program s = State.run fuel t.resetCommand := by
  rw [State.loadAndRun, h]

theorem State.loadAndRun_of_load_fault {fuel : Nat} {program : List Byte} {s : State} {f : Fault}
    (h : s.load program = .fault f) : State.loadAndRun fuel program s = some (.fault f) := by
  rw [State.loadAndRun, h]

/-- A session that ends in one RUN leaves what any command leaves that answers the same: the loop is never refused, so
it does not matter which state the command was issued in. -/
theorem State.session_of_issue_eq_run {fuel : Nat} {s t : State} {c : Command} (ht : t.runState = .halted)
    (h : s.issue fuel c = State.run fuel t) : s.session fuel [c] = t.session fuel [.run] := by
  have hrun : t.issue fuel .run = State.run fuel t := State.issue_halted ht fuel .run
  cases e : State.run fuel t with
  | none => rw [State.session_cons_of_issue_none (h.trans e), State.session_cons_of_issue_none (hrun.trans e)]
  | some o =>
    rw [State.session_cons_of_issue (h.trans e), State.session_cons_of_issue (hrun.trans e)]
    cases o with
    | next u => rfl
    | fault f => rfl
    | refused r => exact absurd e (State.loop_not_refused fuel _ r)

/-- Settles O41: outside `Halted` all four commands are refused; in it a program that fits is loaded, reset and run,
and one that does not leaves a core that refuses the other two. -/
theorem loadAndRunIsTheThreeCommands : Obligations.LoadAndRunIsTheThreeCommands := by
  intro fuel s program
  by_cases h : s.runState = .halted
  · have hissue := State.issue_halted h fuel (.loadAndRun program)
    have hload := State.issue_halted h fuel (.load program)
    rcases s.load_cases program with ⟨hlen, e⟩ | ⟨hgt, e⟩
    · refine ⟨?_, fun _ hgt => by omega⟩
      rw [State.session_cons_of_issue (hload.trans (congrArg some e)), settled_next,
        State.session_cons_of_issue (State.issue_halted (s := s.loadProgram program) h fuel .reset)]
      exact State.session_of_issue_eq_run h (hissue.trans (State.loadAndRun_of_load_next e))
    · have hsame := hissue.trans (State.loadAndRun_of_load_fault e)
      refine ⟨?_, fun _ _ => hsame.trans (hload.trans (congrArg some e)).symm⟩
      rw [State.session_cons_of_issue hsame, State.session_cons_of_issue (hload.trans (congrArg some e))]
      have hfaulted : (s.setRunState (.faulted .programTooLarge)).runState ≠ .halted := by simp
      exact (State.session_of_ne_halted hfaulted fuel (by simp)).symm
  · refine ⟨?_, fun hh => absurd hh h⟩
    rw [State.session_of_ne_halted h fuel (by simp), State.session_of_ne_halted h fuel (by simp)]

/-! ## The transitions of `run_state` -/

/-- What a step does to `run_state` (R65). -/
theorem settled_step_runState (s : State) : (settled s (step s)).runState =
    if s.runState = .running then
      if s.read8 s.pc = 0x00#8 then .halted
      else if s.read8 s.pc = 0xA9#8 ∨ s.read8 s.pc = 0xAA#8 ∨ s.read8 s.pc = 0xE8#8 then .running
      else .faulted .unrecognizedOpcode
    else s.runState := by
  cases hr : s.runState with
  | running =>
    rcases step_running_cases hr with ⟨hop, e⟩ | ⟨hop, e⟩ | ⟨hop, e⟩ | ⟨hop, e⟩ | ⟨⟨hbrk, hlda, htax, hinx⟩, e⟩ <;>
      rw [e]
    · simp [settled, hop]
    · simp [settled, hop, hr]
    · simp [settled, hop, hr]
    · simp [settled, hop, hr]
    · simp [settled, unrecognizedOpcode, Fault.stopped, hbrk, hlda, htax, hinx]
  | halted => rw [step_of_halted hr]; exact hr
  | faulted c => rw [step_of_faulted hr]; exact hr

/-- Settles O27: the step's row, and one row for each command that runs no step. -/
theorem runStateTransitionsAreTheTable : Obligations.RunStateTransitionsAreTheTable := by
  refine ⟨settled_step_runState, fun fuel s h => ⟨_, State.issue_powerOn h fuel, rfl⟩, fun fuel s h => ?_⟩
  refine ⟨⟨_, State.issue_halted h fuel .reset, h⟩, ⟨_, State.issue_halted h fuel .inspect, h⟩, ?_, ?_, rfl⟩
  · exact fun program hlen => ⟨_, State.issue_load_of_le h fuel hlen, h⟩
  · exact fun program hgt => ⟨_, oversizedLoadIsFatalAndWritesNothing fuel s program h hgt, rfl⟩

end Sys2Proof.Machine
end

section
/-! Runs (R66, R75, R135): the loop under fuel and the host interface's run say the same, and each ends by its last
step. -/

namespace Sys2Proof.Machine

/-! ## The host interface's run -/

/-- A halted core idles (log 1). -/
theorem core_run_of_halted {s : State} (h : s.runState = .halted) (n : Nat) : Host.Core.run core n s = .next s := by
  induction n with
  | zero => rfl
  | succ n ih => exact (core_run_next (step_of_halted h)).trans ih

/-- A run of one step more that goes on began with a step that went on. -/
theorem core_run_succ_cases {n : Nat} {s v : State} (h : Host.Core.run core (n + 1) s = .next v) :
    ∃ t, step s = .next t ∧ Host.Core.run core n t = .next v := by
  cases e : step s with
  | next t => exact ⟨t, rfl, (core_run_next e).symm.trans h⟩
  | fault f => cases (core_run_fault e).symm.trans h
  | refused r => exact absurd e (step_not_refused s r)

/-- What every step that goes on keeps, the state a run leaves has. -/
theorem core_run_keeps {P : State → Prop} (hstep : ∀ u t, step u = .next t → P u → P t) {n : Nat} {s v : State}
    (h : Host.Core.run core n s = .next v) (hs : P s) : P v := by
  induction n generalizing s with
  | zero => cases h; exact hs
  | succ n ih =>
    obtain ⟨t, e, h⟩ := core_run_succ_cases h
    exact ih h (hstep s t e hs)

theorem core_run_mem {n : Nat} {s v : State} (h : Host.Core.run core n s = .next v) : v.mem = s.mem :=
  core_run_keeps (P := fun u => u.mem = s.mem) (fun _ _ e hu => (step_next_mem e).trans hu) h rfl

/-- A run that leaves a running core began in one: no step leads back to `Running`. -/
theorem running_of_core_run {n : Nat} {s u : State} (h : Host.Core.run core n s = .next u)
    (hu : u.runState = .running) : s.runState = .running := by
  cases n with
  | zero => cases h; exact hu
  | succ n =>
    obtain ⟨t, e, -⟩ := core_run_succ_cases h
    rcases step_next_cases e with hr | ⟨hh, -⟩
    · exact hr
    · rw [core_run_of_halted hh] at h; cases h; exact hu

/-! ## The loop -/

/-- What a loop that answers began with: no step, a step that went on, or a fault. -/
theorem State.loop_cases {m : Nat} {s : State} {o : Host.Outcome State Fault Refusal} (h : State.loop m s = some o) :
    (s.runState ≠ .running ∧ o = .next s) ∨
    (s.runState = .running ∧ ∃ k t, m = k + 1 ∧ step s = .next t ∧ State.loop k t = some o) ∨
    (s.runState = .running ∧ ∃ k f, m = k + 1 ∧ step s = .fault f ∧ o = .fault f) := by
  by_cases hr : s.runState = .running
  · cases m with
    | zero => rw [State.loop_zero_running hr] at h; cases h
    | succ k =>
      cases e : step s with
      | next t => exact .inr (.inl ⟨hr, k, t, rfl, rfl, (State.loop_running_next hr e).symm.trans h⟩)
      | fault f =>
        rw [State.loop_running_fault hr e] at h
        cases h
        exact .inr (.inr ⟨hr, k, f, rfl, rfl, rfl⟩)
      | refused r => exact absurd e (step_not_refused s r)
  · rw [State.loop_not_running hr] at h; cases h; exact .inl ⟨hr, rfl⟩

theorem State.loop_mono {m n : Nat} {s : State} {o : Host.Outcome State Fault Refusal}
    (h : State.loop m s = some o) (hmn : m ≤ n) : State.loop n s = some o := by
  induction n generalizing m s with
  | zero => obtain rfl := Nat.le_zero.1 hmn; exact h
  | succ n ih =>
    rcases State.loop_cases h with ⟨hr, rfl⟩ | ⟨hr, k, t, rfl, e, hk⟩ | ⟨hr, k, f, rfl, e, rfl⟩
    · exact State.loop_not_running hr
    · rw [State.loop_running_next hr e]
      exact ih hk (by omega)
    · exact State.loop_running_fault hr e

theorem State.loop_unique {m n : Nat} {s : State} {o o' : Host.Outcome State Fault Refusal}
    (h : State.loop m s = some o) (h' : State.loop n s = some o') : o' = o := by
  rcases Nat.le_total m n with hmn | hnm
  · exact Option.some.inj (h'.symm.trans (State.loop_mono h hmn))
  · exact Option.some.inj ((State.loop_mono h' hnm).symm.trans h)

theorem State.loop_next_not_running {fuel : Nat} {s t : State} (h : State.loop fuel s = some (.next t)) :
    t.runState ≠ .running := by
  rcases State.loop_induction (P := fun _ => True) (fun _ _ _ _ _ => trivial) (fun _ _ _ _ _ => trivial) h trivial
    with ⟨u, e, -, hu⟩ | ⟨f, e, -⟩ <;> cases e
  exact hu

/-- A step of a running core that goes on leaves it running, unless it is a BRK's (R65). -/
theorem step_running_next_runState {s t : State} (hr : s.runState = .running) (h : step s = .next t) :
    t.runState = .running ∨ (s.read8 s.pc = 0x00#8 ∧ t.runState = .halted) := by
  rcases step_running_next_cases hr h with ⟨hop, rfl⟩ | ⟨-, rfl⟩ | ⟨-, rfl⟩ | ⟨-, rfl⟩
  · exact .inr ⟨hop, rfl⟩
  all_goals exact .inl ((State.writeResult_runState _ _ _).trans hr)

/-- The host interface's run answers what the loop does: it goes the same steps, and idles after a halt (log 1). -/
theorem core_run_of_loop {m n : Nat} {s : State} {o : Host.Outcome State Fault Refusal}
    (h : State.loop m s = some o) (hs : s.runState = .running ∨ s.runState = .halted) (hmn : m ≤ n) :
    Host.Core.run core n s = o := by
  induction n generalizing m s with
  | zero =>
    obtain rfl := Nat.le_zero.1 hmn
    rcases State.loop_cases h with ⟨-, rfl⟩ | ⟨-, k, t, e, -⟩ | ⟨-, k, f, e, -⟩
    · rfl
    · cases e
    · cases e
  | succ n ih =>
    rcases State.loop_cases h with ⟨hr, rfl⟩ | ⟨hr, k, t, rfl, e, hk⟩ | ⟨-, k, f, rfl, e, rfl⟩
    · exact core_run_of_halted (hs.resolve_left hr) _
    · refine (core_run_next e).trans (ih hk ?_ (by omega))
      exact (step_running_next_runState hr e).imp_right And.right
    · exact core_run_fault e

/-- A loop that answers ends by a step from a running state the run passes through. -/
theorem State.loop_last_step {m : Nat} {s : State} {o : Host.Outcome State Fault Refusal}
    (hr : s.runState = .running) (h : State.loop m s = some o) :
    ∃ n u, Host.Core.run core n s = .next u ∧ u.runState = .running ∧ step u = o := by
  induction m generalizing s with
  | zero => rw [State.loop_zero_running hr] at h; cases h
  | succ m ih =>
    rcases State.loop_cases h with ⟨hn, -⟩ | ⟨-, k, t, hm, e, hk⟩ | ⟨-, k, f, -, e, rfl⟩
    · exact absurd hr hn
    · cases hm
      by_cases ht : t.runState = .running
      · obtain ⟨n, u, hrun, hu, hstep⟩ := ih ht hk
        exact ⟨n + 1, u, (core_run_next e).trans hrun, hu, hstep⟩
      · rw [State.loop_not_running ht] at hk
        cases hk
        exact ⟨0, s, rfl, hr, e⟩
    · exact ⟨0, s, rfl, hr, e⟩

/-- The steps that lead to a running state are the loop's. -/
theorem State.loop_of_core_run {n : Nat} {s u : State} (h : Host.Core.run core n s = .next u)
    (hu : u.runState = .running) (k : Nat) : State.loop (n + k) s = State.loop k u := by
  induction n generalizing s with
  | zero => cases h; rw [Nat.zero_add]
  | succ n ih =>
    have hs := running_of_core_run h hu
    obtain ⟨t, e, h⟩ := core_run_succ_cases h
    rw [Nat.add_right_comm, State.loop_running_next hs e, ih h]

/-- Settles O47: more fuel changes no answer, so two fuels cannot differ, and the host interface goes the same steps. -/
theorem runResultDoesNotDependOnFuel : Obligations.RunResultDoesNotDependOnFuel :=
  fun _ _ _ _ h =>
    ⟨State.loop_mono h, fun _ h' => State.loop_unique h h', fun hr => core_run_of_loop h (.inl hr)⟩

/-! ## How a run ends -/

/-- The last step of a run that ends correctly is a BRK's. -/
theorem State.loop_next_last_step {m : Nat} {s t : State} (hr : s.runState = .running)
    (h : State.loop m s = some (.next t)) :
    ∃ n u, Host.Core.run core n s = .next u ∧ u.runState = .running ∧ u.read8 u.pc = 0x00#8 ∧ step u = .next t := by
  obtain ⟨n, u, hrun, hu, hstep⟩ := State.loop_last_step hr h
  obtain ⟨hop, -⟩ := (step_running_next_runState hu hstep).resolve_left (State.loop_next_not_running h)
  exact ⟨n, u, hrun, hu, hop, hstep⟩

theorem step_brk_eq {s t : State} (hr : s.runState = .running) (hop : s.read8 s.pc = 0x00#8)
    (h : step s = .next t) : t = s.advancePc.setRunState .halted := by
  rw [step_brk hr hop] at h; cases h; rfl

/-- Settles O55: the last step of the loop, and conversely the loop that goes the steps to that state and one more. -/
theorem runsEndCorrectlyExactlyAtABrk : Obligations.RunsEndCorrectlyExactlyAtABrk := by
  intro s t hr
  constructor
  · rintro ⟨fuel, h, -⟩
    exact State.loop_next_last_step hr h
  · rintro ⟨n, u, hrun, hu, hop, hstep⟩
    obtain rfl := step_brk_eq hu hop hstep
    refine ⟨n + 1, ?_, rfl⟩
    rw [State.loop_of_core_run hrun hu, State.loop_running_next hu hstep]
    exact State.loop_not_running nofun

theorem endsCorrectly_of_loop {fuel : Nat} {s t : State} (hr : s.runState = .running)
    (h : State.loop fuel s = some (.next t)) : EndsCorrectly s t :=
  (runsEndCorrectlyExactlyAtABrk s t hr).2 (State.loop_next_last_step hr h)

/-- A run ends in one of the two ways, if it ends. -/
theorem ends_or_neverEnds {s : State} (hr : s.runState = .running) :
    (∃ t, EndsCorrectly s t) ∨ (∃ f, EndsInFault s f) ∨ NeverEnds s := by
  by_cases hnever : NeverEnds s
  · exact .inr (.inr hnever)
  · obtain ⟨fuel, hfuel⟩ := not_forall.1 hnever
    cases h : State.loop fuel s with
    | none => exact absurd h hfuel
    | some o =>
      cases o with
      | next t => exact .inl ⟨t, endsCorrectly_of_loop hr h⟩
      | fault f => exact .inr (.inl ⟨f, fuel, h⟩)
      | refused r => exact absurd h (State.loop_not_refused fuel s r)

theorem not_neverEnds_of_loop {fuel : Nat} {s : State} {o : Host.Outcome State Fault Refusal}
    (h : State.loop fuel s = some o) : ¬ NeverEnds s := by
  intro hnever
  rw [hnever fuel] at h
  cases h

/-- Settles O48: the last step of a run that ends is a BRK's, which leaves `pc` past its byte, or the fatal condition of
the byte it carries; before it memory was not written. -/
theorem runsEndByBrkOrUnrecognizedOpcode : Obligations.RunsEndByBrkOrUnrecognizedOpcode := by
  refine ⟨fun s hr => ends_or_neverEnds hr, ?_, ?_, ?_, ?_⟩
  · rintro s t f ⟨fuel, h, -⟩
    refine ⟨?_, not_neverEnds_of_loop h⟩
    rintro ⟨fuel', h'⟩
    cases State.loop_unique h h'
  · rintro s f ⟨fuel, h⟩
    exact not_neverEnds_of_loop h
  · rintro s t hr ⟨fuel, h, -⟩
    obtain ⟨n, u, hrun, hu, hop, hstep⟩ := State.loop_next_last_step hr h
    obtain rfl := step_brk_eq hu hop hstep
    have hmem := core_run_mem hrun
    refine ⟨hmem, ?_⟩
    have hpc : (u.advancePc.setRunState .halted).pc - 1 = u.pc := BitVec.add_sub_cancel u.pc 1
    rw [hpc]
    exact hop
  · rintro s f hr ⟨fuel, h⟩
    obtain ⟨n, u, hrun, hu, hstep⟩ := State.loop_last_step hr h
    have hmem := core_run_mem hrun
    rcases step_fault_cases hstep with ⟨-, hop, rfl⟩ | ⟨c, hc, -⟩
    · exact ⟨_, _, rfl, not_mem_opcodes_iff.2 hop, rfl, rfl, hmem, rfl⟩
    · rw [hu] at hc; cases hc

/-- A run never ends that stays within a set of running states, each with a step to one of the set. -/
theorem neverEnds_of_steps_within {P : State → Prop}
    (hP : ∀ u, P u → u.runState = .running ∧ ∃ t, step u = .next t ∧ P t) {s : State} (hs : P s) : NeverEnds s := by
  intro fuel
  induction fuel generalizing s with
  | zero => exact State.loop_zero_running (hP s hs).1
  | succ fuel ih =>
    obtain ⟨hr, t, e, ht⟩ := hP s hs
    exact (State.loop_running_next hr e).trans (ih ht)

/-- Settles O49: each step is an LDA's, a TAX's or an INX's, so the core keeps running, at an address of the set, over
the same memory. -/
theorem runWithoutReachableStopNeverEnds : Obligations.RunWithoutReachableStopNeverEnds := by
  intro s reach hr hpc hclosed
  refine neverEnds_of_steps_within (P := fun u => u.mem = s.mem ∧ u.runState = .running ∧ reach u.pc) ?_ ⟨rfl, hr, hpc⟩
  rintro u ⟨hm, hu, hupc⟩
  have hread : s.read8 u.pc = u.read8 u.pc := congrArg (Memory.read8 · u.pc) hm.symm
  refine ⟨hu, ?_⟩
  rcases hclosed u.pc hupc with ⟨hop, hnext⟩ | ⟨hop | hop, hnext⟩ <;> rw [hread] at hop
  · refine ⟨_, step_lda hu hop, hm, hu, ?_⟩
    rw [State.advancePc_advancePc]
    exact hnext
  · exact ⟨_, step_tax hu hop, hm, hu, hnext⟩
  · exact ⟨_, step_inx hu hop, hm, hu, hnext⟩

/-! ## RUN -/

/-- Settles O45: the loop's own equations, and that it does not answer a running state. -/
theorem runStepsWhileRunning : Obligations.RunStepsWhileRunning := by
  refine ⟨fun fuel s h => State.issue_halted h fuel .run, fun _ _ _ => State.loop_running_next,
    fun _ _ _ => State.loop_running_fault, fun _ _ => State.loop_not_running, fun fuel s t h => ?_⟩
  cases ha : s.runState.accepts .run with
  | false => rw [State.issue_not_accepted ha] at h; cases h
  | true => exact State.loop_next_not_running ((State.issue_accepted ha).symm.trans h)

/-- A RUN from a BRK: the loop's one step advances `pc` and halts again (R95, R131). -/
theorem State.issue_run_brk {s : State} (h : s.runState = .halted) (hop : s.read8 s.pc = 0x00#8) (fuel : Nat) :
    s.issue (fuel + 1) .run = some (.next { s with pc := s.pc + 1 }) := by
  have hstep : step s.enterLoop = .next (s.enterLoop.advancePc.setRunState .halted) := step_brk rfl hop
  rw [State.issue_halted h]
  refine (State.loop_running_next rfl hstep).trans ((State.loop_not_running (by simp)).trans ?_)
  simp [State.advancePc_eq, State.setRunState, h]

/-- Settles O46: the core just powered on is at a BRK. -/
theorem runFromABrkIsOneStep : Obligations.RunFromABrkIsOneStep :=
  ⟨fun fuel _ h hop => State.issue_run_brk h hop fuel,
    State.session_cons_of_issue (State.issue_run_brk (s := State.reset) rfl rfl 0) []⟩

/-! ## INX in a row -/

/-- `n` INX in a row (R90). -/
theorem core_run_inx {n : Nat} {s : State} (hr : s.runState = .running)
    (h : ∀ k, k < n → s.read8 (s.pc + BitVec.ofNat 16 k) = 0xE8#8) :
    ∃ t : State, Host.Core.run core n s = .next t ∧ t.indexX = s.indexX + BitVec.ofNat 8 n ∧
      t.pc = s.pc + BitVec.ofNat 16 n ∧ t.accumulator = s.accumulator ∧ t.mem = s.mem ∧ t.runState = .running := by
  induction n generalizing s with
  | zero => exact ⟨s, rfl, (BitVec.add_zero _).symm, (BitVec.add_zero _).symm, rfl, rfl, hr⟩
  | succ n ih =>
    have hop : s.read8 s.pc = 0xE8#8 := by simpa using h 0 n.succ_pos
    have hadd {w : Nat} (a : BitVec w) (k : Nat) : a + 1 + BitVec.ofNat w k = a + BitVec.ofNat w (k + 1) := by
      rw [BitVec.add_assoc, BitVec.add_comm 1, BitVec.ofNat_add]; rfl
    obtain ⟨t, hrun, hx, hpc, ha, hm, ht⟩ := ih (s := s.advancePc.writeResult .x (s.indexX + 1)) hr
      (fun k hk => (congrArg s.read8 (hadd s.pc k)).trans (h (k + 1) (by omega)))
    exact ⟨t, (core_run_next (step_inx hr hop)).trans hrun, hx.trans (hadd _ n), hpc.trans (hadd _ n), ha, hm, ht⟩

/-- Settles O31: 256 is 0 modulo 256. -/
theorem consecutiveInxAddModulo256 : Obligations.ConsecutiveInxAddModulo256 := by
  intro n s hr h
  obtain ⟨t, hrun, hx, hpc, ha, hm, ht⟩ := core_run_inx hr h
  refine ⟨t, hrun, hx, ?_, hpc, ha, hm, ht⟩
  rintro rfl
  exact hx.trans (BitVec.add_zero s.indexX)

end Sys2Proof.Machine
end

section
/-! R76: after a legal LOAD and a RESET every RUN terminates. The vector's cells hold 0x00 and 0x80, a BRK and an
unrecognized opcode side by side, so no step from at or below them goes on beyond them. -/

namespace Sys2Proof.Machine

/-- A core whose `pc` is in the program's part of memory, which the vector of the origin closes off. -/
structure BelowVector (s : State) : Prop where
  vectorLow : s.read8 0xFFFC#16 = 0x00#8
  vectorHigh : s.read8 0xFFFD#16 = 0x80#8
  pc_ge : 0x8000 ≤ s.pc.toNat
  pc_le : s.pc.toNat ≤ 0xFFFD

namespace BelowVector

theorem congr {s t : State} (h : BelowVector s) (hmem : t.mem = s.mem) (hge : 0x8000 ≤ t.pc.toNat)
    (hle : t.pc.toNat ≤ 0xFFFD) : BelowVector t where
  vectorLow := (congrArg (Memory.read8 · 0xFFFC#16) hmem).trans h.vectorLow
  vectorHigh := (congrArg (Memory.read8 · 0xFFFD#16) hmem).trans h.vectorHigh
  pc_ge := hge
  pc_le := hle

/-- The cells of the vector, and the addresses below it. -/
theorem opcode_cases {s : State} (h : BelowVector s) :
    (s.pc.toNat = 0xFFFD ∧ Unrecognized (s.read8 s.pc)) ∨ (s.pc.toNat = 0xFFFC ∧ s.read8 s.pc = 0x00#8) ∨
      s.pc.toNat < 0xFFFC := by
  have hle := h.pc_le
  have hcases : s.pc.toNat = 0xFFFD ∨ s.pc.toNat = 0xFFFC ∨ s.pc.toNat < 0xFFFC := by omega
  refine hcases.imp (fun hpc => ⟨hpc, ?_⟩) (Or.imp_left fun hpc => ⟨hpc, ?_⟩)
  · have e : s.pc = 0xFFFD#16 := BitVec.eq_of_toNat_eq hpc
    rw [e, h.vectorHigh]
    decide
  · have e : s.pc = 0xFFFC#16 := BitVec.eq_of_toNat_eq hpc
    rw [e]
    exact h.vectorLow

theorem toNat_pc_add {s : State} (h : BelowVector s) {n : Nat} (hn : n ≤ 2) :
    (s.pc.toNat + n) % 65536 = s.pc.toNat + n := by
  have := h.pc_le
  omega

/-- A step of a running core that goes on advances `pc`, at most onto the vector's high byte; it leaves the core running
only from below the vector. -/
theorem step_next {s t : State} (h : BelowVector s) (hr : s.runState = .running) (e : step s = .next t) :
    BelowVector t ∧ s.pc.toNat < t.pc.toNat ∧
      (t.runState = .halted ∨ (t.runState = .running ∧ s.pc.toNat < 0xFFFC)) := by
  have hge := h.pc_ge
  obtain ⟨n, hn, hpc⟩ := pcAdvancesByTheInstructionLength s t hr e
  obtain ⟨hpos, htwo⟩ := instrLength_bounds hn
  rw [h.toNat_pc_add htwo] at hpc
  rcases h.opcode_cases with ⟨-, hu⟩ | ⟨htop, hop⟩ | hlt
  · cases (step_unrecognized hr hu).symm.trans e
  · rw [hop, instrLength_brk] at hn
    cases hn
    obtain rfl := step_brk_eq hr hop e
    exact ⟨h.congr rfl (by omega) (by omega), by omega, .inl rfl⟩
  · refine ⟨h.congr (step_next_mem e) (by omega) (by omega), by omega, ?_⟩
    exact (step_running_next_runState hr e).symm.imp And.right fun ht => ⟨ht, hlt⟩

/-- The fatal condition leaves `pc` one past the byte. -/
theorem step_fault {s : State} {f : Fault} (h : BelowVector s) (hr : s.runState = .running)
    (e : step s = .fault f) :
    f.stopped.runState = .faulted .unrecognizedOpcode ∧ f.stopped.pc.toNat = s.pc.toNat + 1 := by
  rcases step_fault_cases e with ⟨-, -, rfl⟩ | ⟨c, hc, -⟩
  · exact ⟨rfl, (BitVec.toNat_add s.pc 1).trans (h.toNat_pc_add (by decide))⟩
  · rw [hr] at hc; cases hc

/-- Every state a run passes through is such a state. -/
theorem core_run {k : Nat} {s v : State} (h : BelowVector s) (hrun : Host.Core.run core k s = .next v) :
    BelowVector v := by
  refine core_run_keeps (fun u t e hu => ?_) hrun h
  rcases step_next_cases e with hr | ⟨-, rfl⟩
  · exact (hu.step_next hr e).1
  · exact hu

end BelowVector

/-! ## Step counts -/

theorem State.stepCount_running_next {fuel : Nat} {s t : State} (hr : s.runState = .running) (h : step s = .next t) :
    State.stepCount (fuel + 1) s = State.stepCount fuel t + 1 := by simp [State.stepCount, hr, h]

theorem State.stepCount_running_fault {fuel : Nat} {s : State} {f : Fault} (hr : s.runState = .running)
    (h : step s = .fault f) : State.stepCount (fuel + 1) s = 1 := by simp [State.stepCount, hr, h]

theorem State.stepCount_not_running {fuel : Nat} {s : State} (hr : s.runState ≠ .running) :
    State.stepCount fuel s = 0 := by cases fuel <;> simp [State.stepCount, hr]

theorem State.runsStepCount_succ {fuel n : Nat} {s : State} {o : Host.Outcome State Fault Refusal}
    (h : s.runState = .halted) (hissue : s.issue fuel .run = some o) :
    State.runsStepCount fuel (n + 1) s =
      State.stepCount fuel s.enterLoop + State.runsStepCount fuel n (settled s o) := by
  have ha : s.runState.accepts .run = true := by rw [h]; rfl
  simp only [State.runsStepCount, hissue, ha, if_true]

/-- A RUN that is not accepted performs no step (R128). -/
theorem State.runsStepCount_of_ne_halted {s : State} (h : s.runState ≠ .halted) (fuel n : Nat) :
    State.runsStepCount fuel n s = 0 := by
  have ha : s.runState.accepts .run = false := RunState.accepts_of_ne_halted h nofun
  induction n with
  | zero => rfl
  | succ n ih => simp [State.runsStepCount, ha, State.issue_not_accepted ha, settled, ih]

/-! ## Runs -/

/-- How a RUN may leave the core: halted where another RUN goes on, or faulted. -/
def AtRest (u : State) : Prop :=
  (u.runState = .halted ∧ BelowVector u) ∨ ((∃ c, u.runState = .faulted c) ∧ u.pc.toNat ≤ 0xFFFE)

theorem AtRest.pc_le {u : State} (h : AtRest u) : u.pc.toNat ≤ 0xFFFE := by
  rcases h with ⟨-, hu⟩ | ⟨-, hu⟩
  · exact hu.pc_le.trans (by decide)
  · exact hu

/-- A loop with a step of fuel for each address up to the vector's, and at least one, completes, and performs at most as
many steps as it advances `pc`. -/
theorem BelowVector.loop_completes {fuel : Nat} {s : State} (h : BelowVector s) (hr : s.runState = .running)
    (hpos : 0 < fuel) (hfuel : 0xFFFD ≤ fuel + s.pc.toNat) :
    ∃ o, State.loop fuel s = some o ∧ ∀ s₀, AtRest (settled s₀ o) ∧
      State.stepCount fuel s + s.pc.toNat ≤ (settled s₀ o).pc.toNat := by
  induction fuel generalizing s with
  | zero => omega
  | succ fuel ih =>
    cases e : step s with
    | next t =>
      obtain ⟨ht, hlt, hhalt | ⟨hrun, hbelow⟩⟩ := h.step_next hr e
      · have hnr : t.runState ≠ .running := by rw [hhalt]; exact nofun
        refine ⟨.next t, (State.loop_running_next hr e).trans (State.loop_not_running hnr), fun s₀ => ?_⟩
        rw [State.stepCount_running_next hr e, State.stepCount_not_running hnr, settled_next]
        exact ⟨.inl ⟨hhalt, ht⟩, by omega⟩
      · obtain ⟨o, ho, hrest⟩ := ih ht hrun (by omega) (by omega)
        refine ⟨o, (State.loop_running_next hr e).trans ho, fun s₀ => ?_⟩
        obtain ⟨hat, hcount⟩ := hrest s₀
        rw [State.stepCount_running_next hr e]
        exact ⟨hat, by omega⟩
    | fault f =>
      obtain ⟨hf, hpc⟩ := h.step_fault hr e
      have hle := h.pc_le
      refine ⟨.fault f, State.loop_running_fault hr e, fun s₀ => ?_⟩
      rw [State.stepCount_running_fault hr e, settled_fault]
      exact ⟨.inr ⟨⟨_, hf⟩, by omega⟩, by omega⟩
    | refused r => exact absurd e (step_not_refused s r)

theorem BelowVector.enterLoop {s : State} (h : BelowVector s) : BelowVector s.enterLoop :=
  h.congr rfl h.pc_ge h.pc_le

/-- A RUN with 0x7FFD steps of fuel completes (R76). -/
theorem BelowVector.run_completes {fuel : Nat} {s : State} (h : BelowVector s) (hh : s.runState = .halted)
    (hfuel : 0x7FFD ≤ fuel) :
    ∃ o, s.issue fuel .run = some o ∧ AtRest (settled s o) ∧
      State.stepCount fuel s.enterLoop + s.pc.toNat ≤ (settled s o).pc.toNat := by
  have hge := h.pc_ge
  obtain ⟨o, ho, hrest⟩ := h.enterLoop.loop_completes (fuel := fuel) rfl (by omega)
    (by rw [State.enterLoop_eq, State.setRunState_pc]; omega)
  exact ⟨o, (State.issue_halted hh fuel .run).trans ho, hrest s⟩

/-- Any number of RUNs complete, and together perform at most as many steps as they advance `pc`. -/
theorem AtRest.runs_complete {fuel : Nat} (hfuel : 0x7FFD ≤ fuel) (n : Nat) {u : State} (h : AtRest u) :
    ∃ v, u.session fuel (List.replicate n .run) = some v ∧ AtRest v ∧
      State.runsStepCount fuel n u + u.pc.toNat ≤ v.pc.toNat := by
  induction n generalizing u with
  | zero => exact ⟨u, rfl, h, (Nat.zero_add _).le⟩
  | succ n ih =>
    rcases h with ⟨hh, hu⟩ | ⟨⟨c, hc⟩, hpc⟩
    · obtain ⟨o, ho, hrest, hcount⟩ := hu.run_completes hh hfuel
      obtain ⟨v, hv, hat, hruns⟩ := ih hrest
      refine ⟨v, (State.session_cons_of_issue ho _).trans hv, hat, ?_⟩
      rw [State.runsStepCount_succ hh ho]
      omega
    · have hne : u.runState ≠ .halted := by rw [hc]; exact nofun
      refine ⟨u, State.session_of_ne_halted hne fuel (by simp), .inr ⟨⟨c, hc⟩, hpc⟩, ?_⟩
      rw [State.runsStepCount_of_ne_halted hne, Nat.zero_add]

/-- After a legal LOAD and a RESET, `pc` is at the origin, below the vector LOAD wrote (R122, R125). -/
theorem belowVector_resetCommand_loadProgram {s : State} (hm : s.mem.wf = true) {program : List Byte}
    (hlen : program.length ≤ 0x8000) : BelowVector (s.loadProgram program).resetCommand := by
  have hpc : (s.loadProgram program).resetCommand.pc = 0x8000#16 := State.loadProgram_read16_vector hm program
  constructor
  · exact State.loadProgram_read8 hm hlen 0xFFFC#16
  · exact State.loadProgram_read8 hm hlen 0xFFFD#16
  · rw [hpc]; decide
  · rw [hpc]; decide

/-- Settles O50: each step advances `pc`, and none goes on from the vector. -/
theorem runsAfterLoadAndResetTerminate : Obligations.RunsAfterLoadAndResetTerminate := by
  intro s program fuel n h hm hlen hfuel
  have ht := belowVector_resetCommand_loadProgram hm hlen
  have hge := ht.pc_ge
  have hstart : AtRest (s.loadProgram program).resetCommand := .inl ⟨h, ht⟩
  obtain ⟨o, ho, -⟩ := ht.run_completes h le_rfl
  obtain ⟨u, hu, hrest, hcount⟩ := AtRest.runs_complete hfuel n hstart
  have hle := hrest.pc_le
  refine ⟨(s.loadProgram program).resetCommand, u, ?_, ?_, hu, by omega, fun hh k v hrun => ?_⟩
  · rw [State.session_cons_of_issue (State.issue_load_of_le h fuel hlen)]
    exact State.session_cons_of_issue (State.issue_halted (s := s.loadProgram program) h fuel .reset) []
  · rw [ho]; exact nofun
  · rcases hrest with ⟨-, hbelow⟩ | ⟨⟨c, hc⟩, -⟩
    · have hv := hbelow.enterLoop.core_run hrun
      exact ⟨hv.pc_ge, hv.pc_le⟩
    · rw [hh] at hc; cases hc

end Sys2Proof.Machine
end

section
/-! Assembly texts (R61): a program the model writes out is split, trimmed and parsed back into its
instructions. -/

namespace Sys2Proof.Machine

/-! ## Characters -/

/-- The sixteen digits, each read back as its value, and none of them a separator or a blank. -/
theorem hexChar_spec {n : Nat} (h : n < 16) :
    hexDigit (hexChar n) = some n ∧ hexChar n ≠ ',' ∧ hexChar n ≠ '\n' ∧ hexChar n ≠ ' ' := by
  revert n
  decide

/-- A written instruction holds no comma and no line break. -/
theorem asmText_no_separator (i : Instr) : ∀ c ∈ asmText i, c ≠ ',' ∧ c ≠ '\n' := by
  cases i with
  | lda imm8 =>
    have hlt := imm8.isLt
    obtain ⟨-, hhigh, hhigh', -⟩ := hexChar_spec (show imm8.toNat / 16 < 16 by omega)
    obtain ⟨-, hlow, hlow', -⟩ := hexChar_spec (show imm8.toNat % 16 < 16 by omega)
    simp [asmText, hhigh, hhigh', hlow, hlow']
  | brk | tax | inx => simp [asmText]

/-! ## Splitting -/

theorem splitItems_of_not_separator {c : Char} (h : c ≠ ',' ∧ c ≠ '\n') {text item : List Char}
    {items : List (List Char)} (htext : splitItems text = item :: items) :
    splitItems (c :: text) = (c :: item) :: items := by
  simp [splitItems, h, htext]

/-- Text without a separator stays before the first item of what follows it. -/
theorem splitItems_append {front text item : List Char} {items : List (List Char)}
    (h : ∀ c ∈ front, c ≠ ',' ∧ c ≠ '\n') (htext : splitItems text = item :: items) :
    splitItems (front ++ text) = (front ++ item) :: items := by
  induction front with
  | nil => exact htext
  | cons c front ih =>
    obtain ⟨hc, hfront⟩ := List.forall_mem_cons.1 h
    exact splitItems_of_not_separator hc (ih hfront)

theorem splitItems_comma (text : List Char) : splitItems (',' :: text) = [] :: splitItems text := rfl

/-- The items of a written program: its instructions, each but the first after a blank. -/
theorem splitItems_programText (i : Instr) (rest : List Instr) :
    splitItems (programText (i :: rest)) = asmText i :: rest.map fun j => ' ' :: asmText j := by
  induction rest generalizing i with
  | nil =>
    have h := splitItems_append (asmText_no_separator i) (rfl : splitItems [] = [[]])
    rwa [List.append_nil] at h
  | cons j rest ih =>
    have hblank := splitItems_of_not_separator (c := ' ') (by decide) (ih j)
    have h := splitItems_append (asmText_no_separator i) ((splitItems_comma _).trans (congrArg _ hblank))
    rwa [List.append_nil] at h

/-! ## Trimming -/

theorem dropBlanks_of_ne {c : Char} (h : c ≠ ' ') (text : List Char) : dropBlanks (c :: text) = c :: text := by
  simp [dropBlanks, h]

/-- An item with no blank at either end. -/
theorem trimBlanks_of_ends {c d : Char} (hc : c ≠ ' ') (hd : d ≠ ' ') (middle : List Char) :
    trimBlanks (c :: (middle ++ [d])) = c :: (middle ++ [d]) := by
  have hrev : (c :: (middle ++ [d])).reverse = d :: (c :: middle).reverse := by simp
  rw [trimBlanks, dropBlanks_of_ne hc, hrev, dropBlanks_of_ne hd, ← hrev, List.reverse_reverse]

theorem trimBlanks_blank (text : List Char) : trimBlanks (' ' :: text) = trimBlanks text := rfl

theorem trimBlanks_asmText (i : Instr) : trimBlanks (asmText i) = asmText i := by
  cases i with
  | lda imm8 =>
    obtain ⟨-, -, -, hlow⟩ := hexChar_spec (Nat.mod_lt imm8.toNat (by decide : 0 < 16))
    exact trimBlanks_of_ends (c := 'L') (by decide) hlow ['D', 'A', ' ', '0', 'x', hexChar (imm8.toNat / 16)]
  | brk | tax | inx => rfl

/-! ## Parsing -/

theorem digitsValue_hexChar {high low : Nat} (hhigh : high < 16) (hlow : low < 16) :
    digitsValue 16 0 [hexChar high, hexChar low] = some (16 * high + low) := by
  simp [digitsValue, hexChar_spec hhigh, hexChar_spec hlow, hhigh, hlow, Nat.mul_comm]

theorem byteValue_hex (b : Byte) :
    byteValue ['0', 'x', hexChar (b.toNat / 16), hexChar (b.toNat % 16)] = some b := by
  have hlt : b.toNat < 256 := b.isLt
  have hvalue : numberValue ['0', 'x', hexChar (b.toNat / 16), hexChar (b.toNat % 16)] = some b.toNat :=
    (digitsValue_hexChar (by omega) (by omega)).trans (congrArg some (Nat.div_add_mod b.toNat 16))
  rw [byteValue, hvalue]
  simp [hlt]

theorem parseInstr_asmText (i : Instr) : parseInstr (asmText i) = some i := by
  cases i with
  | lda imm8 => exact congrArg (Option.map Instr.lda) (byteValue_hex imm8)
  | brk | tax | inx => rfl

theorem asmText_ne_nil (i : Instr) : asmText i ≠ [] := by cases i <;> exact nofun

/-- An item that is a written instruction, blanks at its ends apart. -/
theorem parseItems_cons_of_trim {item : List Char} {i : Instr} (h : trimBlanks item = asmText i)
    {items : List (List Char)} {program : List Instr} (hitems : parseItems items = some program) :
    parseItems (item :: items) = some (i :: program) := by
  simp [parseItems, h, asmText_ne_nil, parseInstr_asmText, hitems]

theorem parseItems_map_blank (program : List Instr) :
    parseItems (program.map fun j => ' ' :: asmText j) = some program := by
  induction program with
  | nil => rfl
  | cons i rest ih => exact parseItems_cons_of_trim ((trimBlanks_blank _).trans (trimBlanks_asmText i)) ih

theorem parseItems_splitItems_programText (program : List Instr) :
    parseItems (splitItems (programText program)) = some program := by
  cases program with
  | nil => rfl
  | cons i rest =>
    rw [splitItems_programText]
    exact parseItems_cons_of_trim (trimBlanks_asmText i) (parseItems_map_blank rest)

/-- Settles O52: the text parses back to the program, whose encodings the assembler joins. -/
theorem writtenProgramsAssembleToTheirBytes : Obligations.WrittenProgramsAssembleToTheirBytes := by
  intro program
  rw [assemble, parseItems_splitItems_programText]
  rfl

/-- Settles O51: the three texts are split at commas and at the line break, and each item is an instruction; the second
is also what the model writes for its program. -/
theorem sourceExamplesAssemble : Obligations.SourceExamplesAssemble :=
  ⟨by decide, writtenProgramsAssembleToTheirBytes [.lda 0xC0#8, .tax, .inx, .brk], by decide⟩

end Sys2Proof.Machine
end
